-- ==== Sys2Proof/Word.lean ====
section
/-! DEFINITION. The two data widths of the machine: a byte of the image and a 32-bit word. -/

namespace Sys2Proof

/-- A byte of the memory image, a register-index field or a width field (10_state.md R34, 30_encoding.md R84, R86). -/
abbrev Byte := BitVec 8

/-- A general register, the program counter, an immediate or a target: 32 bits (10_state.md R20, R24;
30_encoding.md R85). -/
abbrev Word := BitVec 32

end Sys2Proof
end

