-- ==== Sys2Proof/Config.lean ====
section
/-! DEFINITION. The parameters of 00_scope.md R6 that are numbers, at the values the spec decides. `IMAGE` and `IMAGE_LEN`
are OPEN arguments and stand in State (log entry 2). There is no free value: 93_implementation_defined.md part 2 lists no
behaviour that is "any value". -/

namespace Sys2Proof.Config

/-- `NREG`, the number of general registers (00_scope.md R6, 10_state.md R20, decision D1). DESIGN CHOICE, log entry 5: a
constant of the model, not an argument of it. -/
abbrev nreg : Nat := 8

/-- The largest image length, `2^32 - 1` (00_scope.md R6, 70_reset_and_hazards.md R211, decision D3). -/
abbrev maxImageLen : Nat := 2 ^ 32 - 1

/-- The length in bytes of the longest instruction, formats RI and RT (30_encoding.md R81). -/
abbrev maxInstrLen : Nat := 6

end Sys2Proof.Config
end

