-- ==== Sys2Proof/Machine/Bits.lean ====
section
/-! DEFINITION. The notation of 00_scope.md R7 that the model computes with (`u32`, `s32`), the one byte order of the machine
(20_memory.md R52), and the coding of the width byte (30_encoding.md R86). -/

namespace Sys2Proof

/-- `u32(v) = v mod 2^32`, of an unbounded integer (00_scope.md R7). -/
def u32 (v : Int) : Word := BitVec.ofInt 32 v

/-- `s32(v)`: the two's-complement reading, `v` if `v < 2^31`, else `v - 2^32` (00_scope.md R7). -/
def s32 (v : Word) : Int := if v.toNat < 2 ^ 31 then v.toNat else (v.toNat : Int) - 2 ^ 32

/-- The unsigned little-endian reading of a list of bytes, the lowest address first: the sum of
`mem[a+i] * 2^(8*i)` (20_memory.md R52, R54; 30_encoding.md R85). -/
def leValue : List Byte → Nat
  | [] => 0
  | b :: bs => b.toNat + 256 * leValue bs

/-- The `n` little-endian bytes of a value, `v[8*i+7 : 8*i]` at place `i` (20_memory.md R52, R55). -/
def leBytes : Nat → Nat → List Byte
  | 0, _ => []
  | n + 1, v => BitVec.ofNat 8 v :: leBytes n (v / 256)

/-- The access width a width byte names: the byte's value is the width in bytes and the legal values are exactly 1, 2, 4
and 8 (30_encoding.md R86, R87; 20_memory.md R51). -/
def accessWidth? (w : Byte) : Option Nat :=
  if w = 1 ∨ w = 2 ∨ w = 4 ∨ w = 8 then some w.toNat else none

end Sys2Proof
end

