-- ==== Sys2Proof/Machine/Memory.lean ====
section
/-! DEFINITION. The bytes of the image as data: a list of cells in one canonical form, and reading and writing it
(20_memory.md). Bounds are checked in Ops.lean, where the image length is known. -/

namespace Sys2Proof.Machine

/-- The memory's cells: address and byte, addresses strictly rising, no cell holding what an unlisted address reads as. -/
abbrev Memory := List Host.Cell

/-- What an address below the image length that no cell lists reads as: the byte 0. DESIGN CHOICE, log entry 3: an image's
zero bytes are the ones that are not listed (every byte of an image is given by the host, 70_reset_and_hazards.md R211). -/
def Memory.unlisted : Byte := 0

/-- The byte at an address (00_scope.md R8 `mem[a]`). -/
def Memory.read : Memory → Nat → Byte
  | [], _ => Memory.unlisted
  | (k, v) :: rest, a => if a = k then v else Memory.read rest a

/-- Put a byte at an address of a memory none of whose cells lies at or below it: list it, unless it is what an unlisted
address reads as. -/
def Memory.cons (a : Nat) (b : Byte) (rest : Memory) : Memory :=
  if b = Memory.unlisted then rest else (a, b) :: rest

/-- Write one byte, keeping the canonical form (20_memory.md R55, `mem[a] <- b`). -/
def Memory.write : Memory → Nat → Byte → Memory
  | [], a, b => Memory.cons a b []
  | (k, v) :: rest, a, b =>
    if a < k then Memory.cons a b ((k, v) :: rest)
    else if a = k then Memory.cons a b rest
    else (k, v) :: Memory.write rest a b

/-- The `n` bytes from an address up, lowest address first. -/
def Memory.readBytes (m : Memory) (a : Nat) : Nat → List Byte
  | 0 => []
  | n + 1 => m.read a :: Memory.readBytes m (a + 1) n

/-- Write bytes from an address up, lowest address first (20_memory.md R55). -/
def Memory.writeBytes (m : Memory) (a : Nat) : List Byte → Memory
  | [] => m
  | b :: bs => Memory.writeBytes (m.write a b) (a + 1) bs

/-- The memory that holds the given bytes from an address up and nothing else (70_reset_and_hazards.md R211:
`mem[i] = IMAGE[i]`). -/
def Memory.ofBytes (a : Nat) : List Byte → Memory
  | [] => []
  | b :: bs => Memory.cons a b (Memory.ofBytes (a + 1) bs)

/-- The canonical form from an address up. -/
def Memory.wfFrom (lo : Nat) : Memory → Bool
  | [] => true
  | (k, v) :: rest => decide (lo ≤ k) && decide (v ≠ Memory.unlisted) && Memory.wfFrom (k + 1) rest

/-- The canonical form: addresses strictly rising, no cell holding what an unlisted address reads as. -/
def Memory.wf (m : Memory) : Bool := Memory.wfFrom 0 m

/-- Every cell lies inside the image of length `len`: "Addresses `>= L` do not exist" (10_state.md R34). -/
def Memory.within (len : Nat) (m : Memory) : Bool := m.all fun c => decide (c.1 < len)

end Sys2Proof.Machine
end

