-- ==== Sys2Proof/Machine/State.lean ====
section
/-! DEFINITION. The whole state of the CORE, the tuple `(x[0..7], pc, FSR.fault, FSR.halted, FSR.cause, mem[0..L-1])` of
10_state.md with its image length, as plain data; the reasons a step of the MODEL could stop; the state after reset. -/

namespace Sys2Proof.Machine

/-- The four machine faults (60_exceptions.md R180). A machine fault is no stop of the model: it is taken (R186) and gives a
next state. -/
inductive FaultKind where
  /-- A memory access with `a + n > L` (R181), in a fetch or in the data access of LOAD or STORE. -/
  | outOfBounds
  /-- An opcode byte with no table entry, or an illegal width byte (R182). -/
  | invalidOpcode
  /-- A register index `>= 8` (R183). -/
  | invalidRegister
  /-- DIV with a zero divisor (R184). -/
  | divisionByZero
  deriving DecidableEq, Repr

/-- The fault-status register, field by field (10_state.md R28). No instruction and no host reads or writes it as one
word; Flags.lean's FSR.word packs it as the spec lays it out. -/
structure FSR where
  /-- Bit 0: the machine is Faulted (R29). -/
  fault : Bool
  /-- Bit 1: the machine is Halted (R30). -/
  halted : Bool
  /-- Bits 4:2: which fault set `fault`; `none` is code 0 (R31). -/
  cause : Option FaultKind
  deriving DecidableEq, Repr

/-- Everything that lasts from one step to the next (10_state.md, head and R35). -/
structure State where
  /-- The general registers `x[0]` to `x[7]` (R20). -/
  x : Vector Word Config.nreg
  /-- The program counter, a byte offset into the image (R24). -/
  pc : Word
  /-- The fault-status register (R28). -/
  fsr : FSR
  /-- The bytes of the image (R34). -/
  mem : Memory
  /-- `L`, the length of the image, constant during a run (R34, R37; 20_memory.md R56; 70_reset_and_hazards.md R211). Its
  32 bits are the bound `0 <= L <= 2^32 - 1` of 00_scope.md R6. -/
  imageLen : Word
  deriving DecidableEq, Repr

/-- The reasons a step of the model stops with a fault: none. Every step from every state has exactly one outcome and it is a
state (93_implementation_defined.md part 2); the four machine faults of the spec are next states, with FSR written
(60_exceptions.md R186; log entry 1). No constructor, so nothing raises one: safe. -/
inductive Fault where
  deriving DecidableEq, Repr

/-- The reasons the model has no meaning for an instruction. -/
inductive Refusal where
  /-- Raised by an arm of Dispatch.lean for an instruction that has no meaning yet; every instruction has one, so nothing
  raises it. Safe: the model would stop where the hardware goes on. -/
  | notModelled (mnemonic : String)
  deriving DecidableEq, Repr

/-- What a meaning answers. -/
abbrev Result := Host.Outcome State Fault Refusal

/-- FSR after reset: 0 in every field (10_state.md R36, 70_reset_and_hazards.md R210). -/
def FSR.reset : FSR := { fault := false, halted := false, cause := none }

/-- The state right after reset: every register 0, `pc` 0, FSR 0 (10_state.md R36), and the empty image. DESIGN CHOICE,
log entry 2: `IMAGE` and `IMAGE_LEN` are OPEN arguments of the model (00_scope.md R6); reset alone invents no program, and
State.load of HostPort.lean puts any image there. -/
def State.reset : State :=
  { x := Vector.replicate Config.nreg 0, pc := 0, fsr := FSR.reset, mem := [], imageLen := 0 }

end Sys2Proof.Machine
end

