-- ==== Sys2Proof/Machine/Flags.lean ====
section
/-! DEFINITION. The fault-status register: its codes, its layout and its writers. The CORE has no condition codes
(10_state.md R39): no flag computation exists on this hardware. -/

namespace Sys2Proof.Machine

/-- The code of a fault kind (60_exceptions.md R180, 10_state.md R28). -/
def FaultKind.code : FaultKind → Nat
  | .outOfBounds => 1
  | .invalidOpcode => 2
  | .invalidRegister => 3
  | .divisionByZero => 4

/-- The value of the `cause` field: 0 for none (10_state.md R28, R31). -/
def FSR.causeCode (f : FSR) : Nat :=
  match f.cause with
  | none => 0
  | some k => k.code

/-- FSR as one 32-bit value: bit 0 `fault`, bit 1 `halted`, bits 4:2 `cause`, bits 31:5 read as 0 (10_state.md R28). -/
def FSR.word (f : FSR) : Word := BitVec.ofNat 32 (f.fault.toNat + 2 * f.halted.toNat + 4 * f.causeCode)

/-- The terminal check (40_step_dispatch_halt.md R111): Faulted or Halted. -/
def FSR.terminal (f : FSR) : Bool := f.fault || f.halted

/-- Setting the fault: `fault` and `cause` are written together, `halted` is not (60_exceptions.md R186). -/
def FSR.setFault (f : FSR) (k : FaultKind) : FSR := { f with fault := true, cause := some k }

/-- Latching `halted`; neither `fault` nor `cause` changes (40_step_dispatch_halt.md R120). -/
def FSR.setHalted (f : FSR) : FSR := { f with halted := true }

/-- The combinations the spec says can occur (10_state.md R28, R31, R33): `cause` is not 0 exactly when `fault` is 1, and
`fault` and `halted` are never both 1. -/
def FSR.legal (f : FSR) : Bool := (f.fault == f.cause.isSome) && !(f.fault && f.halted)

end Sys2Proof.Machine
end

