-- ==== Sys2Proof/Machine/Ops.lean ====
section
/-! DEFINITION. The named operations over the state: registers, program counter, the bounds-checked memory unit, and taking
a machine fault. The meanings reach the state through these alone. -/

namespace Sys2Proof.Machine

/-- Whether the machine is in the Running state (10_state.md R33). -/
def State.running (s : State) : Bool := !s.fsr.terminal

/-- `x[r]` (00_scope.md R8; 10_state.md R20, R21: no register is hard-wired). -/
def State.readReg (s : State) (r : Fin Config.nreg) : Word := s.x[r]

/-- `x[r] <- v` (00_scope.md R8). -/
def State.writeReg (s : State) (r : Fin Config.nreg) (v : Word) : State := { s with x := s.x.set r v }

/-- `pc <- t`, never checked (10_state.md R27, 44_control_transfer.md R165). -/
def State.jump (s : State) (t : Word) : State := { s with pc := t }

/-- The generic advance `pc <- pc + len` (40_step_dispatch_halt.md R116). In a step the sum never wraps (10_state.md R26). -/
def State.advance (s : State) (len : Nat) : State := { s with pc := u32 (s.pc.toNat + len) }

/-- `raise K`, the whole of taking a machine fault: FSR.fault and FSR.cause are written, `x`, `pc`, `mem` and FSR.halted are
not (60_exceptions.md R186). There is no return from it (R193). -/
def State.raise (s : State) (k : FaultKind) : State := { s with fsr := s.fsr.setFault k }

/-- A step that takes the fault `k` ends in the Faulted state: a next state of the model (60_exceptions.md R186, log
entry 1). -/
def raise (k : FaultKind) (s : State) : Result := .next (s.raise k)

/-- HALT's write (40_step_dispatch_halt.md R120). -/
def State.latchHalted (s : State) : State := { s with fsr := s.fsr.setHalted }

/-- The bounds check: an access of `n` bytes at `a` is in bounds exactly when `a + n <= L`, over unbounded integers
(20_memory.md R53, D13). -/
def State.inBounds (s : State) (a n : Nat) : Bool := decide (a + n ≤ s.imageLen.toNat)

/-- `MemRead(a, n)`: the unsigned little-endian value of `n` bytes, or OutOfBounds (20_memory.md R54). -/
def State.memRead (s : State) (a : Word) (n : Nat) : Except FaultKind Nat :=
  if s.inBounds a.toNat n then .ok (leValue (s.mem.readBytes a.toNat n)) else .error .outOfBounds

/-- Bytes into memory from an address up, the rest of the state as it was (20_memory.md R55: "mutates the shared byte buffer
in place"). -/
def State.storeBytes (s : State) (a : Nat) (bs : List Byte) : State := { s with mem := s.mem.writeBytes a bs }

/-- `MemWrite(a, n, v)`: `n` little-endian bytes of `v` at `a`, or OutOfBounds with no byte written (20_memory.md R55). -/
def State.memWrite (s : State) (a : Word) (n v : Nat) : Except FaultKind State :=
  if s.inBounds a.toNat n then .ok (s.storeBytes a.toNat (leBytes n v)) else .error .outOfBounds

end Sys2Proof.Machine
end

