-- ==== Sys2Proof/Machine/Operands.lean ====
section
/-! DEFINITION. The operand forms of the instructions: the register operand with its index check, the width operand, and
the data a STORE takes from a register. -/

namespace Sys2Proof.Machine

/-- The register an index byte names: the whole byte is the index, and 8 to 255 name none (10_state.md R22, 30_encoding.md
R84, D18). -/
def regIndex? (b : Byte) : Option (Fin Config.nreg) :=
  if h : b.toNat < Config.nreg then some ⟨b.toNat, h⟩ else none

/-- A register operand: InvalidRegister if the index byte is 8 or more, else go on with the register (10_state.md R22,
60_exceptions.md R183, R189). -/
def withReg (b : Byte) (s : State) (go : Fin Config.nreg → Result) : Result :=
  match regIndex? b with
  | none => raise .invalidRegister s
  | some r => go r

/-- A width operand: the access width the byte names (30_encoding.md R86). The decoder has refused every other byte (R87), so
no step takes the first case; it answers what R87 gives the encoding. DESIGN CHOICE, log entry 8. -/
def withWidth (width : Byte) (s : State) (go : Nat → Result) : Result :=
  match accessWidth? width with
  | none => raise .invalidOpcode s
  | some n => go n

/-- What a STORE of `n` bytes takes from a register: its low `8*n` bits, or for width 8 the register zero-extended to 64
bits (43_load_store.md R151, R153). -/
def storeData (n : Nat) (v : Word) : Nat := if n = 8 then v.toNat else v.toNat % 2 ^ (8 * n)

/-- What a LOAD writes for a value read from memory: the low 32 bits, so widths 1 and 2 zero-extend, width 4 is the value and
width 8 keeps its low half (43_load_store.md R151, R152, D8). -/
def loadData (v : Nat) : Word := u32 v

end Sys2Proof.Machine
end

