-- ==== Sys2Proof/Machine/Alu.lean ====
section
/-! DEFINITION. The ALU: the four operations on values (42_arithmetic.md R136 to R141) and the shape ADD, SUB, MUL and DIV
share (R135). Operands are read as unbounded integers, the result is computed exactly and reduced modulo 2^32 (R140). -/

namespace Sys2Proof.Machine

/-- ADD: `u32(b + c)` (42_arithmetic.md R136). -/
def aluAdd (b c : Word) : Except FaultKind Word := .ok (u32 ((b.toNat : Int) + c.toNat))

/-- SUB: `u32(b - c)`, the first source is the minuend (42_arithmetic.md R137). -/
def aluSub (b c : Word) : Except FaultKind Word := .ok (u32 ((b.toNat : Int) - c.toNat))

/-- MUL: `u32(b * c)`, the low 32 bits of the exact product (42_arithmetic.md R138). -/
def aluMul (b c : Word) : Except FaultKind Word := .ok (u32 ((b.toNat : Int) * c.toNat))

/-- DIV: DivisionByZero on a zero divisor, else the signed quotient rounded toward zero, reduced modulo 2^32
(42_arithmetic.md R139, R141, D9). -/
def aluDiv (b c : Word) : Except FaultKind Word :=
  if c = 0 then .error .divisionByZero else .ok (u32 ((s32 b).tdiv (s32 c)))

/-- The common part of ADD, SUB, MUL and DIV: the three index checks in operand order, both sources read before the write,
the operation, the write, the advance (42_arithmetic.md R135). -/
def execAlu (f : Word → Word → Except FaultKind Word) (regA regB regC : Byte) (s : State) : Result :=
  withReg regA s fun a =>
  withReg regB s fun b =>
  withReg regC s fun c =>
  match f (s.readReg b) (s.readReg c) with
  | .error k => raise k s
  | .ok r => .next ((s.writeReg a r).advance 4)

end Sys2Proof.Machine
end

