-- ==== Sys2Proof/Machine/Arithmetic.lean ====
section
/-! DEFINITION. The ALU unit's instructions: ADD, SUB, MUL, DIV (40_step_dispatch_halt.md R114, 42_arithmetic.md). -/

namespace Sys2Proof.Machine

/-- ADD regA, regB, regC (42_arithmetic.md R135, R136). -/
def execAdd (regA regB regC : Byte) (s : State) : Result := execAlu aluAdd regA regB regC s

/-- SUB regA, regB, regC (42_arithmetic.md R135, R137). -/
def execSub (regA regB regC : Byte) (s : State) : Result := execAlu aluSub regA regB regC s

/-- MUL regA, regB, regC (42_arithmetic.md R135, R138). -/
def execMul (regA regB regC : Byte) (s : State) : Result := execAlu aluMul regA regB regC s

/-- DIV regA, regB, regC (42_arithmetic.md R135, R139). -/
def execDiv (regA regB regC : Byte) (s : State) : Result := execAlu aluDiv regA regB regC s

end Sys2Proof.Machine
end

