-- ==== Sys2Proof/Machine/ControlTransfer.lean ====
section
/-! DEFINITION. The BRU unit: JMP, JZ, JNZ (40_step_dispatch_halt.md R114, 44_control_transfer.md). -/

namespace Sys2Proof.Machine

/-- JMP target32 (44_control_transfer.md R166). -/
def execJmp (target32 : Word) (s : State) : Result := .next (s.jump target32)

/-- JZ reg, target32: jump if all 32 bits of the register are zero (44_control_transfer.md R167). -/
def execJz (reg : Byte) (target32 : Word) (s : State) : Result :=
  withReg reg s fun r =>
  if s.readReg r = 0 then .next (s.jump target32) else .next (s.advance 6)

/-- JNZ reg, target32: jump if the register is not zero (44_control_transfer.md R168). -/
def execJnz (reg : Byte) (target32 : Word) (s : State) : Result :=
  withReg reg s fun r =>
  if s.readReg r ≠ 0 then .next (s.jump target32) else .next (s.advance 6)

end Sys2Proof.Machine
end

