-- ==== Sys2Proof/Machine/LoadStore.lean ====
section
/-! DEFINITION. The LSU unit: LOAD and STORE (40_step_dispatch_halt.md R114, 43_load_store.md). -/

namespace Sys2Proof.Machine

/-- The effective address, register indirect: the full value of the address register (43_load_store.md R150). -/
def effectiveAddress (addrReg : Fin Config.nreg) (s : State) : Word := s.readReg addrReg

/-- LOAD reg, addrReg, width (43_load_store.md R152): the address is read and memory is read before the destination is
written. -/
def execLoad (reg addrReg width : Byte) (s : State) : Result :=
  withWidth width s fun n =>
  withReg reg s fun r =>
  withReg addrReg s fun ra =>
  match s.memRead (effectiveAddress ra s) n with
  | .error k => raise k s
  | .ok v => .next ((s.writeReg r (loadData v)).advance 4)

/-- STORE addrReg, reg, width (43_load_store.md R153): all or nothing. -/
def execStore (addrReg reg width : Byte) (s : State) : Result :=
  withWidth width s fun n =>
  withReg addrReg s fun ra =>
  withReg reg s fun r =>
  match s.memWrite (effectiveAddress ra s) n (storeData n (s.readReg r)) with
  | .error k => raise k s
  | .ok t => .next (t.advance 4)

end Sys2Proof.Machine
end

