-- ==== Sys2Proof/Machine/MoveImmediate.lean ====
section
/-! DEFINITION. The MOVI unit: LOADI (40_step_dispatch_halt.md R114, 41_loadi.md R130). -/

namespace Sys2Proof.Machine

/-- LOADI reg, imm32 (41_loadi.md R130). -/
def execLoadi (reg : Byte) (imm32 : Word) (s : State) : Result :=
  withReg reg s fun r => .next ((s.writeReg r imm32).advance 6)

end Sys2Proof.Machine
end

