-- ==== Sys2Proof/Machine/System.lean ====
section
/-! DEFINITION. The SYS unit: HALT (40_step_dispatch_halt.md R114, R120). -/

namespace Sys2Proof.Machine

/-- HALT: latch FSR.halted; `pc` stays at the HALT byte (40_step_dispatch_halt.md R120). -/
def execHalt (s : State) : Result := .next s.latchHalted

end Sys2Proof.Machine
end

