-- ==== Sys2Proof/Syntax.lean ====
section
/-! DEFINITION. The instruction set CW-MIN (30_encoding.md R88): the eleven opcodes and the eleven instructions. -/

namespace Sys2Proof

/-- The eleven legal opcodes (30_encoding.md R82, R88). The byte of each and its length are in Decode.lean. -/
inductive Opcode where
  | halt | loadi | add | sub | mul | div | load | store | jmp | jz | jnz
  deriving DecidableEq, Repr

/-- A decoded instruction: its mnemonic and its fields (30_encoding.md R88, R92), operands in encoding order. A register
field is the WHOLE index byte, 0 to 255: 8 to 255 are legal encodings that fault when executed (R84, R90, D18). The width
field is the width byte (R86); WellFormed.lean says which values are legal. -/
inductive Instr where
  /-- `HALT`, format Z (40_step_dispatch_halt.md R120). -/
  | halt
  /-- `LOADI reg, imm32`, format RI (41_loadi.md R130). -/
  | loadi (reg : Byte) (imm32 : Word)
  /-- `ADD regA, regB, regC`, format RRR (42_arithmetic.md R136). -/
  | add (regA regB regC : Byte)
  /-- `SUB regA, regB, regC`, format RRR (42_arithmetic.md R137). -/
  | sub (regA regB regC : Byte)
  /-- `MUL regA, regB, regC`, format RRR (42_arithmetic.md R138). -/
  | mul (regA regB regC : Byte)
  /-- `DIV regA, regB, regC`, format RRR (42_arithmetic.md R139). -/
  | div (regA regB regC : Byte)
  /-- `LOAD reg, addrReg, width`, format RRW: the destination register first (43_load_store.md R152). -/
  | load (reg addrReg width : Byte)
  /-- `STORE addrReg, reg, width`, format RRW: the address register first (43_load_store.md R153). -/
  | store (addrReg reg width : Byte)
  /-- `JMP target32`, format T (44_control_transfer.md R166). -/
  | jmp (target32 : Word)
  /-- `JZ reg, target32`, format RT (44_control_transfer.md R167). -/
  | jz (reg : Byte) (target32 : Word)
  /-- `JNZ reg, target32`, format RT (44_control_transfer.md R168). -/
  | jnz (reg : Byte) (target32 : Word)
  deriving DecidableEq, Repr

end Sys2Proof
end

