-- ==== Sys2Proof/Machine/Dispatch.lean ====
section
/-! DEFINITION. The dispatch multiplexer (40_step_dispatch_halt.md R114): one arm per instruction. -/

namespace Sys2Proof.Machine

/-- Execute a decoded instruction (40_step_dispatch_halt.md R115, R118). -/
def exec (i : Instr) (s : State) : Host.Outcome State Fault Refusal :=
  match i with
  | .halt => Sys2Proof.Machine.execHalt s
  | .loadi reg imm32 => Sys2Proof.Machine.execLoadi reg imm32 s
  | .add regA regB regC => Sys2Proof.Machine.execAdd regA regB regC s
  | .sub regA regB regC => Sys2Proof.Machine.execSub regA regB regC s
  | .mul regA regB regC => Sys2Proof.Machine.execMul regA regB regC s
  | .div regA regB regC => Sys2Proof.Machine.execDiv regA regB regC s
  | .load reg addrReg width => Sys2Proof.Machine.execLoad reg addrReg width s
  | .store addrReg reg width => Sys2Proof.Machine.execStore addrReg reg width s
  | .jmp target32 => Sys2Proof.Machine.execJmp target32 s
  | .jz reg target32 => Sys2Proof.Machine.execJz reg target32 s
  | .jnz reg target32 => Sys2Proof.Machine.execJnz reg target32 s

end Sys2Proof.Machine
end

