-- ==== Sys2Proof/WellFormed.lean ====
section
/-! DEFINITION. Which instructions are legal encodings (30_encoding.md R87, R90). -/

namespace Sys2Proof

/-- The one check of the decoder on an instruction's fields: the width byte of LOAD and STORE is 1, 2, 4 or 8 (30_encoding.md
R87). Every register byte, immediate and target is a legal encoding: "All other byte sequences of the right length are legal
instructions" (R90). -/
def Instr.wellFormed : Instr → Bool
  | .halt => true
  | .loadi _ _ => true
  | .add _ _ _ => true
  | .sub _ _ _ => true
  | .mul _ _ _ => true
  | .div _ _ _ => true
  | .load _ _ width => (accessWidth? width).isSome
  | .store _ _ width => (accessWidth? width).isSome
  | .jmp _ => true
  | .jz _ _ => true
  | .jnz _ _ => true

end Sys2Proof
end

