-- ==== Sys2Proof/Decode.lean ====
section
/-! DEFINITION. The opcode map, the decoder, total on any list of bytes, and the encoder (30_encoding.md). -/

namespace Sys2Proof

/-- The opcode byte of each instruction (30_encoding.md R82, R88). -/
def Opcode.byte : Opcode → Byte
  | .halt => 0x00
  | .loadi => 0x01
  | .add => 0x02
  | .sub => 0x03
  | .mul => 0x04
  | .div => 0x05
  | .load => 0x06
  | .store => 0x07
  | .jmp => 0x08
  | .jz => 0x09
  | .jnz => 0x0A

/-- The opcode table's lookup (40_step_dispatch_halt.md R113): `none` exactly for the bytes 0x0B to 0xFF
(30_encoding.md R89). -/
def Opcode.ofByte? (b : Byte) : Option Opcode :=
  match b.toNat with
  | 0x00 => some .halt
  | 0x01 => some .loadi
  | 0x02 => some .add
  | 0x03 => some .sub
  | 0x04 => some .mul
  | 0x05 => some .div
  | 0x06 => some .load
  | 0x07 => some .store
  | 0x08 => some .jmp
  | 0x09 => some .jz
  | 0x0A => some .jnz
  | _ => none

/-- `len`, a function of the opcode byte alone: one opcode byte plus the total operand width (30_encoding.md R82). -/
def Opcode.length : Opcode → Nat
  | .halt => 1
  | .loadi => 6
  | .add => 4
  | .sub => 4
  | .mul => 4
  | .div => 4
  | .load => 4
  | .store => 4
  | .jmp => 5
  | .jz => 6
  | .jnz => 6

/-- The opcode of an instruction. -/
def Instr.opcode : Instr → Opcode
  | .halt => .halt
  | .loadi _ _ => .loadi
  | .add _ _ _ => .add
  | .sub _ _ _ => .sub
  | .mul _ _ _ => .mul
  | .div _ _ _ => .div
  | .load _ _ _ => .load
  | .store _ _ _ => .store
  | .jmp _ => .jmp
  | .jz _ _ => .jz
  | .jnz _ _ => .jnz

/-- The length of an instruction in bytes (30_encoding.md R82). -/
def Instr.length (i : Instr) : Nat := i.opcode.length

/-- Why the decoder refuses a list of bytes (30_encoding.md R90, R92). -/
inductive Reject where
  /-- There is no byte at all: the opcode fetch runs past the bytes (40_step_dispatch_halt.md R112). -/
  | noOpcodeByte
  /-- The first byte is 0x0B to 0xFF (30_encoding.md R89). -/
  | illegalOpcode
  /-- The opcode is legal and its operand bytes are not all there (40_step_dispatch_halt.md R113). -/
  | truncatedOperands
  /-- LOAD or STORE with a width byte other than 1, 2, 4, 8 (30_encoding.md R87). -/
  | illegalWidth
  deriving DecidableEq, Repr

/-- What the decoder answers: an instruction and the bytes after it, or the name of what is wrong. -/
abbrev Decoded := Except Reject (Instr × List Byte)

/-- Format RI or RT: `op`, `reg`, four little-endian bytes (30_encoding.md R81, R83, R85). -/
def decodeRegWord (mk : Byte → Word → Instr) : List Byte → Decoded
  | reg :: b0 :: b1 :: b2 :: b3 :: rest => .ok (mk reg (u32 (leValue [b0, b1, b2, b3])), rest)
  | _ => .error .truncatedOperands

/-- Format RRR: `op`, `regA`, `regB`, `regC` (30_encoding.md R81, R83). -/
def decodeRegs (mk : Byte → Byte → Byte → Instr) : List Byte → Decoded
  | regA :: regB :: regC :: rest => .ok (mk regA regB regC, rest)
  | _ => .error .truncatedOperands

/-- Format RRW: `op`, `r1`, `r2`, `width`; the width is judged after all three bytes are there (30_encoding.md R81, R83,
R87). -/
def decodeRegsWidth (mk : Byte → Byte → Byte → Instr) : List Byte → Decoded
  | r1 :: r2 :: width :: rest =>
    if (accessWidth? width).isSome then .ok (mk r1 r2 width, rest) else .error .illegalWidth
  | _ => .error .truncatedOperands

/-- Format T: `op`, four little-endian bytes (30_encoding.md R81, R83, R85). -/
def decodeWord (mk : Word → Instr) : List Byte → Decoded
  | b0 :: b1 :: b2 :: b3 :: rest => .ok (mk (u32 (leValue [b0, b1, b2, b3])), rest)
  | _ => .error .truncatedOperands

/-- The operand fields of each opcode, in the format the table gives it (30_encoding.md R82, R88). -/
def decodeOperands (op : Opcode) (rest : List Byte) : Decoded :=
  match op with
  | .halt => .ok (.halt, rest)
  | .loadi => decodeRegWord .loadi rest
  | .add => decodeRegs .add rest
  | .sub => decodeRegs .sub rest
  | .mul => decodeRegs .mul rest
  | .div => decodeRegs .div rest
  | .load => decodeRegsWidth .load rest
  | .store => decodeRegsWidth .store rest
  | .jmp => decodeWord .jmp rest
  | .jz => decodeRegWord .jz rest
  | .jnz => decodeRegWord .jnz rest

/-- The decoder: the checks of 30_encoding.md R92 in their order, on the bytes from the instruction's address onward. -/
def decode : List Byte → Decoded
  | [] => .error .noOpcodeByte
  | b :: rest =>
    match Opcode.ofByte? b with
    | none => .error .illegalOpcode
    | some op => decodeOperands op rest

/-- The operand bytes of an instruction, lowest address first (30_encoding.md R81, R95). -/
def Instr.operandBytes : Instr → List Byte
  | .halt => []
  | .loadi reg imm32 => reg :: leBytes 4 imm32.toNat
  | .add regA regB regC => [regA, regB, regC]
  | .sub regA regB regC => [regA, regB, regC]
  | .mul regA regB regC => [regA, regB, regC]
  | .div regA regB regC => [regA, regB, regC]
  | .load reg addrReg width => [reg, addrReg, width]
  | .store addrReg reg width => [addrReg, reg, width]
  | .jmp target32 => leBytes 4 target32.toNat
  | .jz reg target32 => reg :: leBytes 4 target32.toNat
  | .jnz reg target32 => reg :: leBytes 4 target32.toNat

/-- The bytes of an instruction, lowest address first (30_encoding.md R95). -/
def encode (i : Instr) : List Byte := i.opcode.byte :: i.operandBytes

/-- The register-index bytes of an instruction in encoding order, sources and destination alike (10_state.md R22, R23;
60_exceptions.md R183, R189). -/
def Instr.regBytes : Instr → List Byte
  | .halt => []
  | .loadi reg _ => [reg]
  | .add regA regB regC => [regA, regB, regC]
  | .sub regA regB regC => [regA, regB, regC]
  | .mul regA regB regC => [regA, regB, regC]
  | .div regA regB regC => [regA, regB, regC]
  | .load reg addrReg _ => [reg, addrReg]
  | .store addrReg reg _ => [addrReg, reg]
  | .jmp _ => []
  | .jz reg _ => [reg]
  | .jnz reg _ => [reg]

/-- The bytes of an instruction given as the number `INSN` of 30_encoding.md R80, of which the lowest `nbits` bits count:
padded with zero bytes to the longest instruction. -/
def tableBytes (nbits w : Nat) : List Byte := leBytes Config.maxInstrLen (w % 2 ^ nbits)

/-- The instruction the decoder reads from an opcode-table word: bit 0 is the least significant bit of the first byte
(30_encoding.md R80). -/
def decodeTableWord (nbits w : Nat) : Option Instr :=
  match decode (tableBytes nbits w) with
  | .ok (i, _) => some i
  | .error _ => none

end Sys2Proof
end

