-- ==== Sys2Proof/Machine/Fetch.lean ====
section
/-! DEFINITION. Fetching and decoding the instruction at the program counter (40_step_dispatch_halt.md R112, R113;
30_encoding.md R92), and placing a word there. -/

namespace Sys2Proof.Machine

/-- The machine fault a refusal of the decoder raises (30_encoding.md R90, R92). -/
def rejectFault : Reject → FaultKind
  | .noOpcodeByte => .outOfBounds
  | .illegalOpcode => .invalidOpcode
  | .truncatedOperands => .outOfBounds
  | .illegalWidth => .invalidOpcode

/-- The bytes `I[0 .. len-1]` of the instruction at `pc`: the opcode byte through the memory unit, its table entry, then the
`len - 1` operand bytes, in bounds exactly when `pc + len <= L` (40_step_dispatch_halt.md R112, R113). -/
def fetchBytes (s : State) : Except FaultKind (List Byte) :=
  match s.memRead s.pc 1 with
  | .error k => .error k
  | .ok v =>
    match Opcode.ofByte? (BitVec.ofNat 8 v) with
    | none => .error .invalidOpcode
    | some op =>
      if s.inBounds s.pc.toNat op.length then
        .ok (BitVec.ofNat 8 v :: s.mem.readBytes (s.pc.toNat + 1) (op.length - 1))
      else .error .outOfBounds

/-- The decoder procedure of 30_encoding.md R92: the instruction at `pc`, or the fault its fetch or decode raises. -/
def fetchDecode (s : State) : Except FaultKind Instr :=
  match fetchBytes s with
  | .error k => .error k
  | .ok bytes =>
    match decode bytes with
    | .error r => .error (rejectFault r)
    | .ok (i, _) => .ok i

/-- The state with the given bytes stored from `pc` up, an image long enough to hold them, and the machine Running, so that
the next step fetches them. Where the longest instruction cannot lie at `pc` in any image (00_scope.md R6: `L <= 2^32 - 1`)
nothing changes. Log entry 9. -/
def placeAtPc (s : State) (bytes : List Byte) : State :=
  let stop := s.pc.toNat + bytes.length
  if stop ≤ Config.maxImageLen then
    { s with
      fsr := FSR.reset
      mem := s.mem.writeBytes s.pc.toNat bytes
      imageLen := BitVec.ofNat 32 (max s.imageLen.toNat stop) }
  else s

end Sys2Proof.Machine
end

