-- ==== Sys2Proof/Machine/Step.lean ====
section
/-! DEFINITION. One step of the CORE (40_step_dispatch_halt.md R110 to R118). -/

namespace Sys2Proof.Machine

/-- The step: the terminal check (R111), fetch and decode (R112, R113), execution (R114 to R116). A machine fault is taken,
not a stop (60_exceptions.md R186); a step of a Halted or Faulted machine leaves every part of the state as it is (R111,
R119). -/
def step (s : State) : Host.Outcome State Fault Refusal :=
  if s.fsr.terminal then .next s
  else
    match fetchDecode s with
    | .error k => raise k s
    | .ok i => exec i s

/-- The state with an opcode-table word stored where the next step fetches it (log entry 9). -/
def State.withFetchWord (s : State) (nbits w : Nat) : State := placeAtPc s (tableBytes nbits w)

end Sys2Proof.Machine
end

