-- ==== Sys2Proof/Machine/HostPort.lean ====
section
/-! DEFINITION. The host interface at transaction level (70_reset_and_hazards.md R210 to R215): the reset input, the image
load, the step port with its answer, and the observation of memory. The other observation ports are the fields of State. -/

namespace Sys2Proof.Machine

/-- The reset input: `x[0..7] <- 0`, `pc <- 0`, `FSR <- 0` (70_reset_and_hazards.md R210). Memory and `L` belong to the image
load (R211). -/
def State.resetInput (s : State) : State :=
  { s with x := Vector.replicate Config.nreg 0, pc := 0, fsr := FSR.reset }

/-- Image load: `mem[i] = IMAGE[i]` for `0 <= i < L`, and `L` is the image's length, at most `2^32 - 1`
(70_reset_and_hazards.md R211). No transition for a longer one (log entry 10). -/
def State.load (image : List Byte) (s : State) : Option State :=
  if image.length ≤ Config.maxImageLen then
    some { s with mem := Memory.ofBytes 0 image, imageLen := BitVec.ofNat 32 image.length }
  else none

/-- Start-up: the state in which the first step of a run on an image is requested (70_reset_and_hazards.md R212). -/
def State.boot (image : List Byte) : Option State := State.reset.load image

/-- `running`, the answer of the step requested in a state: `true` if the machine "performed one instruction and remains
runnable", `false` if it is halted or faulted (40_step_dispatch_halt.md R110, R117). State does not keep it, log
entry 4: it is read off the state the step leaves. -/
def stepAnswer (s : State) : Bool :=
  match step s with
  | .next t => t.running
  | .fault _ => false
  | .refused _ => false

/-- The observation port of memory: `mem[a]` for `a < L`, and no other address (70_reset_and_hazards.md R215). -/
def State.observeByte (s : State) (a : Nat) : Option Byte :=
  if a < s.imageLen.toNat then some (s.mem.read a) else none

end Sys2Proof.Machine
end

