-- ==== Sys2Proof/Safety.lean ====
section
/-! DEFINITION. What counts as a legal state and as the end of a run, in the terms the statements use. -/

namespace Sys2Proof.Machine

/-- A legal state: memory in its canonical form, no cell at an address that does not exist (10_state.md R34), and FSR in a
combination the spec says can occur (10_state.md R28, R33). -/
def State.legal (s : State) : Bool := s.mem.wf && s.mem.within s.imageLen.toNat && s.fsr.legal

/-- A good end: the machine is Halted (70_reset_and_hazards.md R217). -/
def State.goodEnd (s : State) : Bool := s.fsr.halted && !s.fsr.fault

/-- An error end: the machine is Faulted (70_reset_and_hazards.md R217). -/
def State.errorEnd (s : State) : Bool := s.fsr.fault

/-- The state after a step. Every step answers a state; were one to stop, this would be the state it stopped in. -/
def State.after (s : State) : State :=
  match step s with
  | .next t => t
  | .fault _ => s
  | .refused _ => s

/-- The state after `n` steps. -/
def State.afterSteps (s : State) : Nat → State
  | 0 => s
  | n + 1 => s.after.afterSteps n

/-- A run is safe if none of its states is Faulted. -/
def State.safeRun (s : State) : Prop := ∀ n, (s.afterSteps n).errorEnd = false

end Sys2Proof.Machine
end

