-- ==== Sys2Proof/Certificates/Slice0/Obligations.lean ====
section
/-! DEFINITION. The statements about the model, one `def Obligations.<Name> : Prop` each, and the words they are said in. Every
statement that a rule of spec/ makes names it; the statements with the mark DESIGN CHOICE name the log entry they rest on. A
machine fault is a next state of the model, with the FSR that 60_exceptions.md R186 gives it, and `stepAnswer` is the answer as
40_step_dispatch_halt.md R110 words it: log entries 1 and 4 say only where the model keeps the two. -/

namespace Sys2Proof.Spec

open Sys2Proof Sys2Proof.Machine

/-- `L`, as a number. -/
abbrev len (s : State) : Nat := s.imageLen.toNat

/-- `pc`, as a number. -/
abbrev pcn (s : State) : Nat := s.pc.toNat

/-- `I[k]`, byte `k` of the instruction at `pc` (00_scope.md R8, 30_encoding.md R80). -/
abbrev I (s : State) (k : Nat) : Byte := s.mem.read (s.pc.toNat + k)

/-- `I[k] + I[k+1]*2^8 + I[k+2]*2^16 + I[k+3]*2^24` (30_encoding.md R85). -/
def field32 (s : State) (k : Nat) : Word :=
  BitVec.ofNat 32 ((I s k).toNat + 2 ^ 8 * (I s (k + 1)).toNat + 2 ^ 16 * (I s (k + 2)).toNat +
    2 ^ 24 * (I s (k + 3)).toNat)

/-- The index byte of a register. -/
def regByte (r : Fin 8) : Byte := BitVec.ofNat 8 r.val

/-- The sum of `mem[a+i] * 2^(8*i)` for `i` below `n` (20_memory.md R54). -/
def leSum (m : Memory) (a n : Nat) : Nat := ∑ i ∈ Finset.range n, 2 ^ (8 * i) * (m.read (a + i)).toNat

/-- `v[8*i+7 : 8*i]` (00_scope.md R7). -/
def byteOf (v i : Nat) : Byte := BitVec.ofNat 8 (v / 2 ^ (8 * i))

/-- No general register changed. -/
def SameRegs (s t : State) : Prop := ∀ r, t.readReg r = s.readReg r

/-- No byte of memory changed, and the image length did not. -/
def SameMemory (s t : State) : Prop := (∀ a, t.mem.read a = s.mem.read a) ∧ t.imageLen = s.imageLen

/-- Register `r` holds `v`; nothing else but `pc` may have changed. -/
def WritesReg (r : Fin 8) (v : Word) (s t : State) : Prop :=
  t.readReg r = v ∧ (∀ j, j ≠ r → t.readReg j = s.readReg j) ∧ t.fsr = s.fsr ∧ SameMemory s t

/-- Nothing but `pc` may have changed. -/
def OnlyPc (s t : State) : Prop := SameRegs s t ∧ t.fsr = s.fsr ∧ SameMemory s t

/-- The bytes from `a` up are the `n` low bytes of `v`; nothing else but `pc` may have changed. -/
def WritesBytes (a n v : Nat) (s t : State) : Prop :=
  (∀ i, i < n → t.mem.read (a + i) = byteOf v i) ∧ (∀ c, c < a ∨ a + n ≤ c → t.mem.read c = s.mem.read c) ∧
    SameRegs s t ∧ t.fsr = s.fsr ∧ t.imageLen = s.imageLen

/-- The fault `k` was taken: FSR.fault is 1, FSR.cause names `k`, and FSR.halted, the registers, `pc` and memory are
unchanged (60_exceptions.md R186). -/
def Faults (k : FaultKind) (s t : State) : Prop :=
  t.fsr.fault = true ∧ t.fsr.cause = some k ∧ t.fsr.halted = s.fsr.halted ∧ SameRegs s t ∧ t.pc = s.pc ∧ SameMemory s t

/-- The step takes the fault `k` and answers `false`. -/
def StepFaults (k : FaultKind) (s : State) : Prop :=
  (∃ t, step s = .next t ∧ Faults k s t) ∧ stepAnswer s = false

/-- The step ends in a state with `P` and answers `true`. -/
def StepCompletes (s : State) (P : State → Prop) : Prop :=
  (∃ t, step s = .next t ∧ P t) ∧ stepAnswer s = true

/-- The opcode table: opcode byte, mnemonic, length (30_encoding.md R82). -/
def opcodeTable : List (Nat × Opcode × Nat) :=
  [(0x00, .halt, 1), (0x01, .loadi, 6), (0x02, .add, 4), (0x03, .sub, 4), (0x04, .mul, 4), (0x05, .div, 4),
    (0x06, .load, 4), (0x07, .store, 4), (0x08, .jmp, 5), (0x09, .jz, 6), (0x0A, .jnz, 6)]

/-- `length(op)` of 40_step_dispatch_halt.md R118, of an opcode byte that is at most 0x0A. -/
def lengthOf (op : Nat) : Nat := ([1, 6, 4, 4, 4, 4, 4, 4, 5, 6, 6][op]?).getD 0

/-- How many register-index bytes follow the opcode byte (30_encoding.md R81, R82). -/
def regCount (op : Nat) : Nat := ([0, 1, 3, 3, 3, 3, 2, 2, 0, 1, 1][op]?).getD 0

/-- The register a byte names, of a byte that is at most 7. -/
def xAt (s : State) (b : Byte) : Word := (s.x[b.toNat]?).getD 0

/-- The checks of 60_exceptions.md R189, items 2 to 7, in the order of its table, each with the fault it raises. -/
def checks (s : State) : List (Bool × FaultKind) :=
  let op := (I s 0).toNat
  [(decide (pcn s + 1 > len s), .outOfBounds),
    (decide (op > 0x0A), .invalidOpcode),
    (decide (pcn s + lengthOf op > len s), .outOfBounds),
    (decide ((op = 6 ∨ op = 7) ∧ (I s 3).toNat ∉ [1, 2, 4, 8]), .invalidOpcode),
    (decide (1 ≤ regCount op ∧ 8 ≤ (I s 1).toNat), .invalidRegister),
    (decide (2 ≤ regCount op ∧ 8 ≤ (I s 2).toNat), .invalidRegister),
    (decide (3 ≤ regCount op ∧ 8 ≤ (I s 3).toNat), .invalidRegister),
    (decide (op = 5 ∧ xAt s (I s 3) = 0), .divisionByZero),
    (decide (op = 6 ∧ (xAt s (I s 2)).toNat + (I s 3).toNat > len s), .outOfBounds),
    (decide (op = 7 ∧ (xAt s (I s 1)).toNat + (I s 3).toNat > len s), .outOfBounds)]

/-- The fault of the first check that fails. -/
def firstFault (s : State) : Option FaultKind := ((checks s).find? (·.1)).map (·.2)

/-- `raise K` of the pseudocode: FSR, and the answer `false` (60_exceptions.md R186). -/
def pRaise (k : FaultKind) (s : State) : Bool × State :=
  (false, { s with fsr := { s.fsr with fault := true, cause := some k } })

/-- `x[r] <- v; pc <- pc + n; return true`. -/
def pWrite (s : State) (r : Byte) (v : Word) (n : Nat) : Bool × State :=
  (true, { s with x := s.x.setIfInBounds r.toNat v, pc := BitVec.ofNat 32 (pcn s + n) })

/-- `pc <- t; return true`. -/
def pGoto (s : State) (t : Word) : Bool × State := (true, { s with pc := t })

/-- `for i in 0..n-1: mem[a+i] <- v[8*i+7 : 8*i]` (20_memory.md R55). -/
def pStore (m : Memory) (a n v : Nat) : Memory :=
  (List.range n).foldl (fun m i => m.write (a + i) (byteOf v i)) m

/-- `exec_ALU(f)` (42_arithmetic.md R135); `none` is DivisionByZero. -/
def pAlu (f : Word → Word → Option Word) (s : State) : Bool × State :=
  if 8 ≤ (I s 1).toNat then pRaise .invalidRegister s
  else if 8 ≤ (I s 2).toNat then pRaise .invalidRegister s
  else if 8 ≤ (I s 3).toNat then pRaise .invalidRegister s
  else match f (xAt s (I s 2)) (xAt s (I s 3)) with
    | none => pRaise .divisionByZero s
    | some v => pWrite s (I s 1) v 4

/-- `exec_LOAD` (43_load_store.md R152). -/
def pLoad (s : State) : Bool × State :=
  if 8 ≤ (I s 1).toNat then pRaise .invalidRegister s
  else if 8 ≤ (I s 2).toNat then pRaise .invalidRegister s
  else
    let a := (xAt s (I s 2)).toNat
    let n := (I s 3).toNat
    if a + n > len s then pRaise .outOfBounds s
    else pWrite s (I s 1) (BitVec.ofNat 32 (leSum s.mem a n)) 4

/-- `exec_STORE` (43_load_store.md R153). -/
def pStoreInstr (s : State) : Bool × State :=
  if 8 ≤ (I s 1).toNat then pRaise .invalidRegister s
  else if 8 ≤ (I s 2).toNat then pRaise .invalidRegister s
  else
    let a := (xAt s (I s 1)).toNat
    let n := (I s 3).toNat
    if a + n > len s then pRaise .outOfBounds s
    else (true, { s with mem := pStore s.mem a n (xAt s (I s 2)).toNat, pc := BitVec.ofNat 32 (pcn s + 4) })

/-- `exec_JZ` and `exec_JNZ` (44_control_transfer.md R167, R168). -/
def pBranch (taken : Word → Bool) (s : State) : Bool × State :=
  if 8 ≤ (I s 1).toNat then pRaise .invalidRegister s
  else if taken (xAt s (I s 1)) then pGoto s (field32 s 2)
  else pGoto s (BitVec.ofNat 32 (pcn s + 6))

/-- `exec_LOADI` (41_loadi.md R130). -/
def pLoadi (s : State) : Bool × State :=
  if 8 ≤ (I s 1).toNat then pRaise .invalidRegister s else pWrite s (I s 1) (field32 s 2) 6

/-- `f` of DIV (42_arithmetic.md R139): `none` on a zero divisor. -/
def pQuotient (b c : Word) : Option Word :=
  if c = 0 then none else some (BitVec.ofInt 32 (b.toInt.tdiv c.toInt))

/-- The `case op of` of 40_step_dispatch_halt.md R118. -/
def pExec (s : State) : Bool × State :=
  match (I s 0).toNat with
  | 0x00 => (false, { s with fsr := { s.fsr with halted := true } })
  | 0x01 => pLoadi s
  | 0x02 => pAlu (fun b c => some (b + c)) s
  | 0x03 => pAlu (fun b c => some (b - c)) s
  | 0x04 => pAlu (fun b c => some (b * c)) s
  | 0x05 => pAlu pQuotient s
  | 0x06 => pLoad s
  | 0x07 => pStoreInstr s
  | 0x08 => pGoto s (field32 s 1)
  | 0x09 => pBranch (fun v => v == 0) s
  | _ => pBranch (fun v => v != 0) s

/-- The whole step as the pseudocode of 40_step_dispatch_halt.md R118 gives it: the answer `running` and the state, read
straight off the bytes at `pc`, with no decoded instruction in between. -/
def pStep (s : State) : Bool × State :=
  if s.fsr.fault ∨ s.fsr.halted then (false, s)
  else if pcn s + 1 > len s then pRaise .outOfBounds s
  else if (I s 0).toNat > 0x0A then pRaise .invalidOpcode s
  else if pcn s + lengthOf (I s 0).toNat > len s then pRaise .outOfBounds s
  else if ((I s 0).toNat = 6 ∨ (I s 0).toNat = 7) ∧ (I s 3).toNat ∉ [1, 2, 4, 8] then pRaise .invalidOpcode s
  else pExec s

/-- The rule of ADD, SUB or MUL with opcode byte `op` and operation `f` (42_arithmetic.md R135 to R138): the faults in their
order, and the result. -/
def AluRule (op : Byte) (f : Word → Word → Word) : Prop :=
  ∀ s : State, s.running = true → pcn s < len s → I s 0 = op →
    (len s < pcn s + 4 → StepFaults .outOfBounds s) ∧
    (pcn s + 4 ≤ len s → (8 ≤ (I s 1).toNat ∨ 8 ≤ (I s 2).toNat ∨ 8 ≤ (I s 3).toNat) →
      StepFaults .invalidRegister s) ∧
    (pcn s + 4 ≤ len s → ∀ a b c : Fin 8, I s 1 = regByte a → I s 2 = regByte b → I s 3 = regByte c →
      StepCompletes s fun t =>
        WritesReg a (f (s.readReg b) (s.readReg c)) s t ∧ t.pc.toNat = pcn s + 4)

/-- The exact rational quotient of two integers, rounded toward zero (42_arithmetic.md R139). -/
def truncDiv (b c : Int) : Int := if 0 ≤ (b : ℚ) / c then ⌊(b : ℚ) / c⌋ else ⌈(b : ℚ) / c⌉

/-- The rule of JZ or JNZ with opcode byte `op` and test `taken` (44_control_transfer.md R167, R168). -/
def BranchRule (op : Byte) (taken : Word → Prop) : Prop :=
  ∀ s : State, s.running = true → pcn s < len s → I s 0 = op →
    (len s < pcn s + 6 → StepFaults .outOfBounds s) ∧
    (pcn s + 6 ≤ len s → 8 ≤ (I s 1).toNat → StepFaults .invalidRegister s) ∧
    (pcn s + 6 ≤ len s → ∀ r : Fin 8, I s 1 = regByte r →
      (taken (s.readReg r) → StepCompletes s fun t => OnlyPc s t ∧ t.pc = field32 s 2 ∧
        (len s ≤ (field32 s 2).toNat → StepFaults .outOfBounds t)) ∧
      (¬ taken (s.readReg r) → StepCompletes s fun t => OnlyPc s t ∧ t.pc.toNat = pcn s + 6))

/-- The kinds of fault that executing an instruction can raise, its fetch and decode being done (60_exceptions.md R185). -/
def execFaultKinds : Instr → List FaultKind
  | .halt => []
  | .loadi _ _ => [.invalidRegister]
  | .add _ _ _ => [.invalidRegister]
  | .sub _ _ _ => [.invalidRegister]
  | .mul _ _ _ => [.invalidRegister]
  | .div _ _ _ => [.invalidRegister, .divisionByZero]
  | .load _ _ _ => [.invalidRegister, .outOfBounds]
  | .store _ _ _ => [.invalidRegister, .outOfBounds]
  | .jmp _ => []
  | .jz _ _ => [.invalidRegister]
  | .jnz _ _ => [.invalidRegister]

/-- Two states no program can tell apart: they differ at most in bytes at addresses outside the image. -/
def AgreeInside (s t : State) : Prop :=
  s.x = t.x ∧ s.pc = t.pc ∧ s.fsr = t.fsr ∧ s.imageLen = t.imageLen ∧ ∀ a, a < len s → s.mem.read a = t.mem.read a

end Sys2Proof.Spec

open Sys2Proof Sys2Proof.Machine Sys2Proof.Spec

/-! ### Encoding -/

/-- The encodings written out in 30_encoding.md R95 and 95_test_vectors.md decode to the instructions they stand for. -/
def Obligations.SpecWordsDecode : Prop :=
  decode [0x00] = .ok (.halt, []) ∧
  decode [0x01, 0x01, 0xEF, 0xCD, 0xAB, 0x89] = .ok (.loadi 1 0x89ABCDEF, []) ∧
  decode [0x02, 0x02, 0x00, 0x01] = .ok (.add 2 0 1, []) ∧
  decode [0x03, 0x05, 0x01, 0x05] = .ok (.sub 5 1 5, []) ∧
  decode [0x04, 0x05, 0x04, 0x03] = .ok (.mul 5 4 3, []) ∧
  decode [0x05, 0x04, 0x01, 0x03] = .ok (.div 4 1 3, []) ∧
  decode [0x06, 0x05, 0x00, 0x02] = .ok (.load 5 0 2, []) ∧
  decode [0x07, 0x00, 0x01, 0x04] = .ok (.store 0 1 4, []) ∧
  decode [0x08, 0x78, 0x56, 0x34, 0x12] = .ok (.jmp 0x12345678, []) ∧
  decode [0x09, 0x01, 0x39, 0x00, 0x00, 0x00] = .ok (.jz 1 0x39, []) ∧
  decode [0x0A, 0x00, 0x12, 0x00, 0x00, 0x00] = .ok (.jnz 0 0x12, [])

/-- Decoding the encoding of a well-formed instruction, with any bytes after it, gives the instruction and those bytes. -/
def Obligations.DecodeEncodeRoundTrip : Prop :=
  ∀ (i : Instr) (rest : List Byte), i.wellFormed = true → decode (encode i ++ rest) = .ok (i, rest)

/-- What the decoder reads is well-formed and encodes to the bytes it was read from: "Every bit of every byte belongs to a
field" (30_encoding.md R83). -/
def Obligations.EncodeDecodeRoundTrip : Prop :=
  ∀ (bs rest : List Byte) (i : Instr), decode bs = .ok (i, rest) → i.wellFormed = true ∧ bs = encode i ++ rest

/-- 30_encoding.md R82: mnemonic and length are a function of the opcode byte alone, as its table gives them; the decoder
finds the operands cut short exactly when fewer than the table's bytes are there. -/
def Obligations.DecodedLengthIsTheTables : Prop :=
  (∀ (b : Byte) (bs rest : List Byte) (i : Instr), decode (b :: bs) = .ok (i, rest) →
    ∃ n, (b.toNat, i.opcode, n) ∈ opcodeTable ∧ bs.length + 1 = n + rest.length) ∧
  (∀ (b : Byte) (op : Opcode) (n : Nat) (bs : List Byte), (b.toNat, op, n) ∈ opcodeTable →
    (decode (b :: bs) = .error .truncatedOperands ↔ bs.length + 1 < n))

/-- 30_encoding.md R89: an opcode byte from 0x0B to 0xFF faults with InvalidOpcode, the last byte of the image among the
places it can stand. -/
def Obligations.IllegalOpcodeFaults : Prop :=
  ∀ s : State, s.running = true → pcn s < len s → 0x0B ≤ (I s 0).toNat → StepFaults .invalidOpcode s

/-- 30_encoding.md R87: a LOAD or STORE whose width byte is not 1, 2, 4 or 8 faults with InvalidOpcode, whatever its register
bytes are, once its four bytes are in bounds; before that it faults with OutOfBounds. -/
def Obligations.IllegalWidthFaults : Prop :=
  ∀ s : State, s.running = true → pcn s < len s → (I s 0 = 0x06 ∨ I s 0 = 0x07) →
    (len s < pcn s + 4 → StepFaults .outOfBounds s) ∧
    (pcn s + 4 ≤ len s → (I s 3).toNat ∉ [1, 2, 4, 8] → StepFaults .invalidOpcode s)

/-! ### The step -/

/-- When bytes of the image at `pc` decode to an instruction, the step of a running machine is exec of it: exec itself moves
`pc` (40_step_dispatch_halt.md R116), and the step adds nothing around it. -/
def Obligations.StepRunsDecodedInstruction : Prop :=
  ∀ (s : State) (n : Nat) (i : Instr) (rest : List Byte), s.running = true → pcn s + n ≤ len s →
    decode (s.mem.readBytes (pcn s) n) = .ok (i, rest) → step s = exec i s

/-- 40_step_dispatch_halt.md R111: in the Halted and in the Faulted state the step answers `false` and changes nothing,
whatever memory holds. -/
def Obligations.TerminalStepIsIdle : Prop :=
  ∀ s : State, (s.fsr.fault = true ∨ s.fsr.halted = true) → step s = .next s ∧ stepAnswer s = false

/-- 40_step_dispatch_halt.md R119: once a step has answered `false`, every later step answers `false` and the state stays. -/
def Obligations.FalseAnswerIsForever : Prop :=
  ∀ (s : State) (n : Nat), stepAnswer s = false →
    s.afterSteps (n + 1) = s.after ∧ stepAnswer (s.afterSteps (n + 1)) = false

/-- 40_step_dispatch_halt.md R117: a step answers `false` in exactly three cases: the machine was Halted or Faulted, the step
raised a fault, or it executed HALT. -/
def Obligations.AnswerIsFalseInThreeCases : Prop :=
  ∀ s : State, stepAnswer s = false ↔
    (s.fsr.fault = true ∨ s.fsr.halted = true) ∨
    (s.running = true ∧ ∃ k, StepFaults k s) ∨
    (s.running = true ∧ pcn s < len s ∧ I s 0 = 0x00)

/-- 40_step_dispatch_halt.md R112: the opcode fetch `MemRead(pc, 1)` is out of bounds exactly when `pc >= L`, with no wrap of
`pc + 1`, and the step then raises OutOfBounds. -/
def Obligations.OpcodeFetchOutOfBounds : Prop :=
  ∀ s : State, (s.memRead s.pc 1 = .error .outOfBounds ↔ len s ≤ pcn s) ∧
    (s.running = true → len s ≤ pcn s → StepFaults .outOfBounds s)

/-- Every step from every state has an outcome and it is a state: no step of the model stops. -/
def Obligations.EveryStepAnswersAState : Prop := ∀ s : State, ∃ t, step s = .next t

/-- 60_exceptions.md R189: the first check that fails, in the order of the table, decides what a step raises; if none fails,
nothing is raised. -/
def Obligations.FirstFailingCheckDecides : Prop :=
  ∀ s : State,
    (s.running = false → step s = .next s ∧ stepAnswer s = false) ∧
    (s.running = true → ∀ k, firstFault s = some k → StepFaults k s) ∧
    (s.running = true → firstFault s = none →
      ∃ t, step s = .next t ∧ t.fsr.fault = false ∧ t.fsr.cause = s.fsr.cause)

/-- 40_step_dispatch_halt.md R118: the step and its answer are those of the pseudocode. -/
def Obligations.StepRefinesPseudocode : Prop :=
  ∀ s : State, step s = .next (pStep s).2 ∧ stepAnswer s = (pStep s).1

/-! ### Faults and the fault-status register -/

/-- 40_step_dispatch_halt.md R115: a step that faults leaves the registers, `pc` and memory as they were; of the state only
FSR.fault and FSR.cause change. -/
def Obligations.FaultingStepChangesOnlyFsr : Prop :=
  ∀ s t : State, s.running = true → step s = .next t → t.fsr.fault = true → ∃ k, Faults k s t

/-- 60_exceptions.md R185, the columns that concern execution: what an instruction raises is one of the kinds the table gives
it. The table is the spec's own inference: "[derived: from the instruction rules R120, R130, ...]". -/
def Obligations.ExecFaultKinds : Prop :=
  ∀ (i : Instr) (s t : State), i.wellFormed = true → s.running = true → exec i s = .next t → t.fsr.fault = true →
    ∃ k, k ∈ execFaultKinds i ∧ Faults k s t

/-- 60_exceptions.md R183: an instruction with a register-index byte of 8 or more, source or destination, raises
InvalidRegister before any read or write of it; one without a bad index never does, HALT and JMP among them. -/
def Obligations.BadRegisterByteFaults : Prop :=
  ∀ (i : Instr) (s : State), i.wellFormed = true →
    ((∃ b ∈ i.regBytes, 8 ≤ b.toNat) → ∃ t, exec i s = .next t ∧ Faults .invalidRegister s t) ∧
    ((∀ b ∈ i.regBytes, b.toNat < 8) → s.running = true → ∀ t, exec i s = .next t →
      ¬ Faults .invalidRegister s t) ∧
    Instr.regBytes .halt = [] ∧ ∀ target, Instr.regBytes (.jmp target) = []

/-- 60_exceptions.md R184: a step raises DivisionByZero exactly when it executes a DIV with three valid indices and a zero
divisor. -/
def Obligations.DivisionByZeroOnlyFromDiv : Prop :=
  ∀ s : State, s.running = true →
    (StepFaults .divisionByZero s ↔
      ∃ a b c : Fin 8, fetchDecode s = .ok (.div (regByte a) (regByte b) (regByte c)) ∧ s.readReg c = 0)

/-- 10_state.md R33: the machine states. Reset enters Running; a step of a Running machine leaves it Running with FSR as it
was, or Halted (by HALT alone), or Faulted (by a fault); Halted and Faulted are terminal; no run from reset on any image
reaches `fault` and `halted` both 1 (the spec's own inference: "[derived: from rules R29, R30 and ... R111]"). -/
def Obligations.MachineStates : Prop :=
  State.reset.running = true ∧ (∀ s : State, s.resetInput.running = true) ∧
  (∀ s t : State, step s = .next t →
    (s.running = true →
      t.fsr = s.fsr ∨
      (I s 0 = 0x00 ∧ t.fsr.halted = true ∧ t.fsr.fault = false ∧ t.fsr.cause = s.fsr.cause) ∨
      (∃ k, StepFaults k s ∧ t.fsr.fault = true ∧ t.fsr.halted = false ∧ t.fsr.cause = some k)) ∧
    (s.running = false → t = s)) ∧
  ∀ (image : List Byte) (s : State) (n : Nat), State.boot image = some s →
    ¬ ((s.afterSteps n).fsr.fault = true ∧ (s.afterSteps n).fsr.halted = true)

/-- 10_state.md R29: FSR.fault is initially clear and, once set, never cleared by steps, and FSR.cause then stays; reset
clears it. -/
def Obligations.FaultFlagIsMonotone : Prop :=
  State.reset.fsr.fault = false ∧ (∀ s : State, s.resetInput.fsr.fault = false) ∧
  ∀ (s : State) (n m : Nat), (s.afterSteps n).fsr.fault = true →
    (s.afterSteps (n + m)).fsr.fault = true ∧ (s.afterSteps (n + m)).fsr.cause = (s.afterSteps n).fsr.cause

/-- 10_state.md R28: the layout of FSR: bit 0 `fault`, bit 1 `halted`, bits 4:2 the code of the cause (0 none, 1 to 4 the four
kinds), bits 31:5 read as 0. -/
def Obligations.FsrLayout : Prop :=
  (∀ f : FSR, f.word.getLsbD 0 = f.fault ∧ f.word.getLsbD 1 = f.halted ∧
    f.word.extractLsb' 2 3 = BitVec.ofNat 3 f.causeCode ∧ f.word.extractLsb' 5 27 = 0) ∧
  FSR.causeCode ⟨true, false, none⟩ = 0 ∧
  FSR.causeCode ⟨true, false, some .outOfBounds⟩ = 1 ∧ FSR.causeCode ⟨true, false, some .invalidOpcode⟩ = 2 ∧
  FSR.causeCode ⟨true, false, some .invalidRegister⟩ = 3 ∧ FSR.causeCode ⟨true, false, some .divisionByZero⟩ = 4 ∧
  FSR.reset.word = 0

/-- 95_test_vectors.md section 0: in a legal state FSR as one value is one of the six of its table. -/
def Obligations.LegalFsrWords : Prop :=
  ∀ s : State, s.legal = true → s.fsr.word ∈ ([0x00, 0x02, 0x05, 0x09, 0x0D, 0x11] : List Word)

/-! ### Invariants -/

/-- Every step keeps a legal state legal: memory in its canonical form with no cell outside the image (10_state.md R34), and
FSR in a combination that can occur (10_state.md R28, R33). The canonical form is the model's own, DESIGN CHOICE log
entry 3. -/
def Obligations.LegalStateIsKept : Prop := ∀ s t : State, s.legal = true → step s = .next t → t.legal = true

/-- The reset state is legal and so is every state a run starts in. That reset carries the empty image is DESIGN CHOICE log
entry 2. -/
def Obligations.ResetAndBootAreLegal : Prop :=
  State.reset.legal = true ∧ ∀ (image : List Byte) (t : State), State.boot image = some t → t.legal = true

/-- 10_state.md R34: no step changes the image length, and reset does not. -/
def Obligations.ImageLengthIsConstant : Prop :=
  (∀ s t : State, step s = .next t → t.imageLen = s.imageLen) ∧
  ∀ (s : State) (n : Nat), (s.afterSteps n).imageLen = s.imageLen

/-- 10_state.md R34, 20_memory.md R61: "Addresses >= L do not exist": no step, nor its answer, depends on what the model's
memory holds at them. The canonical form is the model's own, DESIGN CHOICE log entry 3. -/
def Obligations.OutsideTheImageIsInvisible : Prop :=
  ∀ s s' : State, s.mem.wf = true → s'.mem.wf = true → AgreeInside s s' →
    stepAnswer s = stepAnswer s' ∧ ∃ t t', step s = .next t ∧ step s' = .next t' ∧ AgreeInside t t'

/-- 10_state.md R26: when an instruction has been fetched, the whole of it is in bounds and `pc + len` fits in 32 bits, so the
generic advance is the same with and without reduction modulo 2^32. The spec's own inference: "[derived: from
`40_step_dispatch_halt.md` rule R113 and `00_scope.md` rule R6]". -/
def Obligations.AdvanceNeverWraps : Prop :=
  ∀ (s : State) (i : Instr), fetchDecode s = .ok i →
    pcn s + i.length ≤ len s ∧ pcn s + i.length < 2 ^ 32 ∧ (s.advance i.length).pc.toNat = pcn s + i.length

/-- Two memories in the canonical form that read the same at every address are the same data. The canonical form is the
model's own, DESIGN CHOICE log entry 3. -/
def Obligations.ReadsDetermineMemory : Prop :=
  ∀ m m' : Memory, m.wf = true → m'.wf = true → (∀ a, m.read a = m'.read a) → m = m'

/-! ### The instructions, from the bytes at `pc` -/

/-- 40_step_dispatch_halt.md R120: HALT latches FSR.halted and changes nothing else, `pc` included; this step and every later
one answers `false`; no other instruction ends a run without a fault. -/
def Obligations.HaltRule : Prop :=
  (∀ s : State, s.running = true → pcn s < len s → I s 0 = 0x00 →
    ∃ t, step s = .next t ∧ t.fsr.halted = true ∧ t.fsr.fault = s.fsr.fault ∧ t.fsr.cause = s.fsr.cause ∧
      SameRegs s t ∧ t.pc = s.pc ∧ SameMemory s t ∧ stepAnswer s = false ∧
      ∀ n, stepAnswer (t.afterSteps n) = false) ∧
  ∀ s t : State, s.running = true → step s = .next t → stepAnswer s = false → t.fsr.fault = false →
    pcn s < len s ∧ I s 0 = 0x00

/-- 41_loadi.md R130: LOADI, its faults in their order and its result. -/
def Obligations.LoadiRule : Prop :=
  ∀ s : State, s.running = true → pcn s < len s → I s 0 = 0x01 →
    (len s < pcn s + 6 → StepFaults .outOfBounds s) ∧
    (pcn s + 6 ≤ len s → 8 ≤ (I s 1).toNat → StepFaults .invalidRegister s) ∧
    (pcn s + 6 ≤ len s → ∀ r : Fin 8, I s 1 = regByte r →
      StepCompletes s fun t => WritesReg r (field32 s 2) s t ∧ t.pc.toNat = pcn s + 6)

/-- 42_arithmetic.md R136, R137, R138: ADD, SUB and MUL, their faults in their order and their results; no operand values make
them fault, and the product is the same whether the operands are read as signed or as unsigned. -/
def Obligations.AddSubMulRule : Prop :=
  AluRule 0x02 (fun b c => BitVec.ofNat 32 ((b.toNat + c.toNat) % 2 ^ 32)) ∧
  AluRule 0x03 (fun b c => BitVec.ofNat 32
    (if c.toNat ≤ b.toNat then b.toNat - c.toNat else b.toNat + 2 ^ 32 - c.toNat)) ∧
    AluRule 0x04 (fun b c => BitVec.ofNat 32 ((b.toNat * c.toNat) % 2 ^ 32)) ∧
  ∀ b c : Word, BitVec.ofNat 32 ((b.toNat * c.toNat) % 2 ^ 32) = BitVec.ofInt 32 (b.toInt * c.toInt)

/-- 42_arithmetic.md R139: DIV, its faults in their order, and the exact rational quotient of the signed operands rounded
toward zero, reduced modulo 2^32. -/
def Obligations.DivRule : Prop :=
  ∀ s : State, s.running = true → pcn s < len s → I s 0 = 0x05 →
    (len s < pcn s + 4 → StepFaults .outOfBounds s) ∧
    (pcn s + 4 ≤ len s → (8 ≤ (I s 1).toNat ∨ 8 ≤ (I s 2).toNat ∨ 8 ≤ (I s 3).toNat) →
      StepFaults .invalidRegister s) ∧
    (pcn s + 4 ≤ len s → ∀ a b c : Fin 8, I s 1 = regByte a → I s 2 = regByte b → I s 3 = regByte c →
      (s.readReg c = 0 → StepFaults .divisionByZero s) ∧
      (s.readReg c ≠ 0 → StepCompletes s fun t =>
        WritesReg a (BitVec.ofInt 32 (truncDiv (s.readReg b).toInt (s.readReg c).toInt)) s t ∧
          t.pc.toNat = pcn s + 4))

/-- 43_load_store.md R152: LOAD, its faults in their order, and the little-endian value of the bytes read, taken modulo
2^32. -/
def Obligations.LoadRule : Prop :=
  ∀ s : State, s.running = true → pcn s < len s → I s 0 = 0x06 →
    (len s < pcn s + 4 → StepFaults .outOfBounds s) ∧
    (pcn s + 4 ≤ len s → (I s 3).toNat ∉ [1, 2, 4, 8] → StepFaults .invalidOpcode s) ∧
    (pcn s + 4 ≤ len s → (I s 3).toNat ∈ [1, 2, 4, 8] →
      ((8 ≤ (I s 1).toNat ∨ 8 ≤ (I s 2).toNat) → StepFaults .invalidRegister s) ∧
      ∀ r ra : Fin 8, I s 1 = regByte r → I s 2 = regByte ra →
        (len s < (s.readReg ra).toNat + (I s 3).toNat → StepFaults .outOfBounds s) ∧
        ((s.readReg ra).toNat + (I s 3).toNat ≤ len s → StepCompletes s fun t =>
          WritesReg r (BitVec.ofNat 32 (leSum s.mem (s.readReg ra).toNat (I s 3).toNat)) s t ∧
            t.pc.toNat = pcn s + 4))

/-- 43_load_store.md R153: STORE, its faults in their order, the bytes stored at the effective address and no other byte
changed; it runs as fetched even when it stores over itself. -/
def Obligations.StoreRule : Prop :=
  ∀ s : State, s.running = true → pcn s < len s → I s 0 = 0x07 →
    (len s < pcn s + 4 → StepFaults .outOfBounds s) ∧
    (pcn s + 4 ≤ len s → (I s 3).toNat ∉ [1, 2, 4, 8] → StepFaults .invalidOpcode s) ∧
    (pcn s + 4 ≤ len s → (I s 3).toNat ∈ [1, 2, 4, 8] →
      ((8 ≤ (I s 1).toNat ∨ 8 ≤ (I s 2).toNat) → StepFaults .invalidRegister s) ∧
      ∀ ra r : Fin 8, I s 1 = regByte ra → I s 2 = regByte r →
        (len s < (effectiveAddress ra s).toNat + (I s 3).toNat → StepFaults .outOfBounds s) ∧
        ((effectiveAddress ra s).toNat + (I s 3).toNat ≤ len s → s.mem.wf = true → StepCompletes s fun t =>
          WritesBytes (effectiveAddress ra s).toNat (I s 3).toNat (s.readReg r).toNat s t ∧
            t.pc.toNat = pcn s + 4))

/-- 44_control_transfer.md R166: JMP, the fault of its fetch, and `pc` at the target, whatever the target is: one `>= L` makes
the next step fault, one at the JMP itself makes an endless loop. -/
def Obligations.JmpRule : Prop :=
  ∀ s : State, s.running = true → pcn s < len s → I s 0 = 0x08 →
    (len s < pcn s + 5 → StepFaults .outOfBounds s) ∧
    (pcn s + 5 ≤ len s →
      (StepCompletes s fun t => OnlyPc s t ∧ t.pc = field32 s 1 ∧
        (len s ≤ (field32 s 1).toNat → StepFaults .outOfBounds t)) ∧
      (field32 s 1 = s.pc → ∀ n, s.afterSteps n = s ∧ stepAnswer (s.afterSteps n) = true))

/-- 44_control_transfer.md R167: JZ, its faults in their order; taken exactly on the all-zero pattern. -/
def Obligations.JzRule : Prop := BranchRule 0x09 (fun v => v = 0)

/-- 44_control_transfer.md R168: JNZ, its faults in their order; taken on every other pattern. -/
def Obligations.JnzRule : Prop := BranchRule 0x0A (fun v => v ≠ 0)

/-! ### The instructions, as exec runs them: where each completes, and its frame -/

/-- HALT and JMP complete in every state. -/
def Obligations.HaltAndJmpComplete : Prop :=
  (∀ s : State, ∃ t, exec .halt s = .next t ∧ t.fsr.halted = true ∧ t.fsr.fault = s.fsr.fault ∧
    t.fsr.cause = s.fsr.cause ∧ SameRegs s t ∧ t.pc = s.pc ∧ SameMemory s t) ∧
  ∀ (s : State) (target : Word), ∃ t, exec (.jmp target) s = .next t ∧ OnlyPc s t ∧ t.pc = target

/-- LOADI completes in every state for every register. -/
def Obligations.LoadiCompletes : Prop :=
  ∀ (s : State) (r : Fin 8) (imm : Word), ∃ t, exec (.loadi (regByte r) imm) s = .next t ∧
    WritesReg r imm s t ∧ t.pc = s.pc + 6

/-- ADD, SUB and MUL complete in every state for all registers, which may coincide: the sources are read before the write
(10_state.md R23). The results are those of the ring of integers modulo 2^32, whether the operands are read as signed or as
unsigned (42_arithmetic.md R140). -/
def Obligations.AddSubMulComplete : Prop :=
  ∀ (s : State) (a b c : Fin 8),
    (∃ t v, exec (.add (regByte a) (regByte b) (regByte c)) s = .next t ∧ WritesReg a v s t ∧ t.pc = s.pc + 4 ∧
      v = BitVec.ofInt 32 ((s.readReg b).toInt + (s.readReg c).toInt) ∧
      v = BitVec.ofInt 32 (((s.readReg b).toNat : Int) + (s.readReg c).toNat)) ∧
    (∃ t v, exec (.sub (regByte a) (regByte b) (regByte c)) s = .next t ∧ WritesReg a v s t ∧ t.pc = s.pc + 4 ∧
      v = BitVec.ofInt 32 ((s.readReg b).toInt - (s.readReg c).toInt) ∧
      v = BitVec.ofInt 32 (((s.readReg b).toNat : Int) - (s.readReg c).toNat)) ∧
    (∃ t v, exec (.mul (regByte a) (regByte b) (regByte c)) s = .next t ∧ WritesReg a v s t ∧ t.pc = s.pc + 4 ∧
      v = BitVec.ofInt 32 ((s.readReg b).toInt * (s.readReg c).toInt) ∧
      v = BitVec.ofInt 32 (((s.readReg b).toNat : Int) * (s.readReg c).toNat))

/-- 42_arithmetic.md R141: the division table, row by row, with `B` and `C` the signed readings of the operands, and the
quotient law: DIV completes exactly when the divisor is not zero. -/
def Obligations.DivisionTable : Prop :=
  ∀ (s : State) (a b c : Fin 8) (B C : Int), B = (s.readReg b).toInt → C = (s.readReg c).toInt →
    (C = 0 → ∃ t, exec (.div (regByte a) (regByte b) (regByte c)) s = .next t ∧ Faults .divisionByZero s t) ∧
    (C ≠ 0 → ∃ t v, exec (.div (regByte a) (regByte b) (regByte c)) s = .next t ∧ WritesReg a v s t ∧
      t.pc = s.pc + 4 ∧
      (B = -2 ^ 31 → C = -1 → v = 0x80000000) ∧
      (0 ≤ B → 0 < C → v = BitVec.ofInt 32 ⌊(B : ℚ) / C⌋) ∧
      (B < 0 → 0 < C → v = BitVec.ofInt 32 (-⌊(-B : ℚ) / C⌋)) ∧
      (0 ≤ B → C < 0 → v = BitVec.ofInt 32 (-⌊(B : ℚ) / (-C)⌋)) ∧
      (B < 0 → C < 0 → ¬ (B = -2 ^ 31 ∧ C = -1) → v = BitVec.ofInt 32 ⌊(-B : ℚ) / (-C)⌋) ∧
      (¬ (B = -2 ^ 31 ∧ C = -1) →
        ∃ r : Int, B = v.toInt * C + r ∧ |r| < |C| ∧ (r = 0 ∨ (0 < r ∧ 0 < B) ∨ (r < 0 ∧ B < 0))))

/-- LOAD completes when the data access is in bounds (43_load_store.md R151): widths 1, 2 and 4 give the unsigned value of
the bytes, width 8 that of the low four; no LOAD sign-extends. -/
def Obligations.LoadCompletes : Prop :=
  ∀ (s : State) (r ra : Fin 8) (n : Nat), n ∈ [1, 2, 4, 8] → (effectiveAddress ra s).toNat + n ≤ len s →
    ∃ t v, exec (.load (regByte r) (regByte ra) (BitVec.ofNat 8 n)) s = .next t ∧ WritesReg r v s t ∧
      t.pc = s.pc + 4 ∧ v.toNat = leSum s.mem (effectiveAddress ra s).toNat (min n 4)

/-- STORE completes when the data access is in bounds, in every state whose memory is in the canonical form. -/
def Obligations.StoreCompletes : Prop :=
  ∀ (s : State) (ra r : Fin 8) (n : Nat), n ∈ [1, 2, 4, 8] → s.mem.wf = true →
    (effectiveAddress ra s).toNat + n ≤ len s →
    ∃ t, exec (.store (regByte ra) (regByte r) (BitVec.ofNat 8 n)) s = .next t ∧
      WritesBytes (effectiveAddress ra s).toNat n (s.readReg r).toNat s t ∧ t.pc = s.pc + 4

/-- JZ and JNZ complete in every state for every register, one on the target where the other falls through. -/
def Obligations.JzAndJnzComplete : Prop :=
  ∀ (s : State) (r : Fin 8) (target : Word),
    (∃ t, exec (.jz (regByte r) target) s = .next t ∧ OnlyPc s t ∧
      t.pc = if s.readReg r = 0 then target else s.pc + 6) ∧
    (∃ t, exec (.jnz (regByte r) target) s = .next t ∧ OnlyPc s t ∧
      t.pc = if s.readReg r = 0 then s.pc + 6 else target)

/-- A data access of LOAD or STORE that runs past the image takes OutOfBounds and writes nothing, and its address never wraps:
`0xFFFFFFFF` with width 4 is out of bounds for every `L` (20_memory.md R53). -/
def Obligations.DataAccessOutOfBoundsTraps : Prop :=
  (∀ (s : State) (p q : Fin 8) (n : Nat), n ∈ [1, 2, 4, 8] →
    (len s < (effectiveAddress q s).toNat + n →
      ∃ t, exec (.load (regByte p) (regByte q) (BitVec.ofNat 8 n)) s = .next t ∧ Faults .outOfBounds s t) ∧
    (len s < (effectiveAddress p s).toNat + n →
      ∃ t, exec (.store (regByte p) (regByte q) (BitVec.ofNat 8 n)) s = .next t ∧ Faults .outOfBounds s t)) ∧
  ∀ (s : State) (p q : Fin 8), s.readReg q = 0xFFFFFFFF →
    ∃ t, exec (.load (regByte p) (regByte q) 4) s = .next t ∧ Faults .outOfBounds s t

/-! ### Whole-machine rules -/

/-- 43_load_store.md R155: the only bytes of memory a step changes are those in `[a, a + width)` of a STORE that completes, and
they lie inside the image. The spec's own inference: "[derived: from rules R152, R153 and `10_state.md` rule R40]". -/
def Obligations.OnlyStoreWritesMemory : Prop :=
  ∀ (s t : State) (c : Nat), step s = .next t → t.mem.read c ≠ s.mem.read c →
    c < len s ∧ t.fsr = s.fsr ∧ I s 0 = 0x07 ∧ ∃ ra : Fin 8, I s 1 = regByte ra ∧
      (effectiveAddress ra s).toNat ≤ c ∧ c < (effectiveAddress ra s).toNat + (I s 3).toNat

/-- 10_state.md R23: the only register a step changes is the first operand of a LOADI, ADD, SUB, MUL, DIV or LOAD that
completes. That no other instruction writes one is read off the table of R23. -/
def Obligations.OnlyTheDestinationRegister : Prop :=
  ∀ (s t : State) (r : Fin 8), step s = .next t → t.readReg r ≠ s.readReg r →
    I s 0 ∈ ([0x01, 0x02, 0x03, 0x04, 0x05, 0x06] : List Byte) ∧ I s 1 = regByte r ∧ t.fsr = s.fsr

/-- 10_state.md R25: the new `pc` for every outcome of a step. -/
def Obligations.PcAfterStep : Prop :=
  ∀ s t : State, step s = .next t →
    (s.running = false → t.pc = s.pc) ∧
    (s.running = true → t.fsr.fault = true → t.pc = s.pc) ∧
    (s.running = true → t.fsr.fault = false →
      (I s 0 = 0x00 → t.pc = s.pc) ∧
      (I s 0 = 0x01 → t.pc.toNat = pcn s + 6) ∧
      (I s 0 ∈ ([0x02, 0x03, 0x04, 0x05, 0x06, 0x07] : List Byte) → t.pc.toNat = pcn s + 4) ∧
      (I s 0 = 0x08 → t.pc = field32 s 1) ∧
      (∀ r : Fin 8, I s 1 = regByte r →
        (I s 0 = 0x09 → s.readReg r = 0 → t.pc = field32 s 2) ∧
        (I s 0 = 0x09 → s.readReg r ≠ 0 → t.pc.toNat = pcn s + 6) ∧
        (I s 0 = 0x0A → s.readReg r ≠ 0 → t.pc = field32 s 2) ∧
        (I s 0 = 0x0A → s.readReg r = 0 → t.pc.toNat = pcn s + 6)))

/-- 43_load_store.md R154: STORE then LOAD of the same width at the same address gives the value modulo `2^(8*min(w,4))`: the
value itself at widths 4 and 8, and at widths 1 and 2 where it fits. The spec's own inference: "[derived: from rules R151,
R152 and R153]". -/
def Obligations.StoreThenLoad : Prop :=
  ∀ (s : State) (ra r d : Fin 8) (n : Nat), n ∈ [1, 2, 4, 8] → s.mem.wf = true →
    (effectiveAddress ra s).toNat + n ≤ len s →
    ∃ t u, exec (.store (regByte ra) (regByte r) (BitVec.ofNat 8 n)) s = .next t ∧
      exec (.load (regByte d) (regByte ra) (BitVec.ofNat 8 n)) t = .next u ∧
      (u.readReg d).toNat = (s.readReg r).toNat % 2 ^ (8 * min n 4) ∧
      (n = 4 ∨ n = 8 ∨ (s.readReg r).toNat < 2 ^ (8 * n) → u.readReg d = s.readReg r)

/-- 20_memory.md R53, R54: `MemRead(a, n)` is the sum of `mem[a+i] * 2^(8*i)` exactly when `a + n <= L`, the sum taken over
unbounded integers, and OutOfBounds otherwise. -/
def Obligations.MemReadRule : Prop :=
  ∀ (s : State) (a : Word) (n : Nat), n ∈ [1, 2, 4, 8] →
    (a.toNat + n ≤ len s → s.memRead a n = .ok (leSum s.mem a.toNat n)) ∧
    (len s < a.toNat + n → s.memRead a n = .error .outOfBounds)

/-- 20_memory.md R55: `MemWrite(a, n, v)` puts `v[8*i+7 : 8*i]` at `a + i` and touches nothing else when `a + n <= L`, and
otherwise answers OutOfBounds and no state. -/
def Obligations.MemWriteRule : Prop :=
  ∀ (s : State) (a : Word) (n v : Nat), n ∈ [1, 2, 4, 8] → s.mem.wf = true →
    (a.toNat + n ≤ len s → ∃ t, s.memWrite a n v = .ok t ∧ WritesBytes a.toNat n v s t ∧ t.pc = s.pc) ∧
    (len s < a.toNat + n → s.memWrite a n v = .error .outOfBounds)

/-- 20_memory.md R60: a read of `m` bytes inside the `n` bytes just written gives those bytes of the value. The spec's
own inference: "[derived: from rules R52, R54 and R55]". -/
def Obligations.MixedWidthReads : Prop :=
  ∀ (s t : State) (a b : Word) (n m v : Nat), n ∈ [1, 2, 4, 8] → m ∈ [1, 2, 4, 8] → s.mem.wf = true →
    a.toNat + n ≤ len s → a.toNat ≤ b.toNat → b.toNat + m ≤ a.toNat + n → s.memWrite a n v = .ok t →
    t.memRead b m = .ok (v / 2 ^ (8 * (b.toNat - a.toNat)) % 2 ^ (8 * m))

/-- 20_memory.md R65: a store is seen by the next fetch: a STORE of one byte over the opcode byte of the instruction after it
makes the next step fetch the new byte, here a HALT or an illegal opcode, whatever was there before. The spec's own
inference: "[derived: from §3 ..., §4.1 and §4.3 steps 2 to 5]". -/
def Obligations.NextFetchSeesStore : Prop :=
  ∀ (s : State) (ra r : Fin 8), s.running = true → s.mem.wf = true → pcn s + 5 ≤ len s → I s 0 = 0x07 →
    I s 1 = regByte ra → I s 2 = regByte r → I s 3 = 0x01 → (effectiveAddress ra s).toNat = pcn s + 4 →
    ∃ t, step s = .next t ∧ t.pc.toNat = pcn s + 4 ∧
      ((s.readReg r).toNat % 256 = 0 → ∃ u, step t = .next u ∧ u.fsr.halted = true ∧ u.fsr.fault = false ∧ u.pc = t.pc) ∧
      (0x0B ≤ (s.readReg r).toNat % 256 → StepFaults .invalidOpcode t)

/-- 10_state.md R27: a jump to a target `>= L` completes and answers `true`; the next step faults with OutOfBounds on its
opcode fetch with `pc` equal to the bad target. -/
def Obligations.JumpOutOfTheImage : Prop :=
  ∀ (s : State) (i : Instr) (target : Word), s.running = true → fetchDecode s = .ok i → len s ≤ target.toNat →
    (i = .jmp target ∨ (∃ r : Fin 8, i = .jz (regByte r) target ∧ s.readReg r = 0) ∨
      (∃ r : Fin 8, i = .jnz (regByte r) target ∧ s.readReg r ≠ 0)) →
    stepAnswer s = true ∧ ∃ t, step s = .next t ∧ OnlyPc s t ∧ t.pc = target ∧ StepFaults .outOfBounds t

/-! ### Reset and the host -/

/-- 10_state.md R36: after reset and load of an image every register is 0, `pc` is 0, FSR is 0, memory is the image, and the
machine is Running. -/
def Obligations.BootState : Prop :=
  ∀ image : List Byte, image.length ≤ 2 ^ 32 - 1 → ∃ t, State.boot image = some t ∧
    (∀ r, t.readReg r = 0) ∧ t.pc = 0 ∧ t.fsr.fault = false ∧ t.fsr.halted = false ∧ t.fsr.cause = none ∧
    t.fsr.word = 0 ∧ t.running = true ∧ len t = image.length ∧
    ∀ (i : Nat) (h : i < image.length), t.mem.read i = image[i] ∧ t.observeByte i = some image[i]

/-- 70_reset_and_hazards.md R211: the image load makes memory the image and `L` its length, and touches nothing else. -/
def Obligations.LoadPlacesTheImage : Prop :=
  ∀ (image : List Byte) (s : State), image.length ≤ 2 ^ 32 - 1 → ∃ t, s.load image = some t ∧
    len t = image.length ∧ (∀ (i : Nat) (h : i < image.length), t.mem.read i = image[i]) ∧
    SameRegs s t ∧ t.pc = s.pc ∧ t.fsr = s.fsr

/-- 70_reset_and_hazards.md R210: the reset input sets every register, `pc` and FSR to 0, from every state, the terminal ones
among them, and the machine is Running; loading and resetting may come in either order (R212). That
memory and `L` stay as they are is DEDUCED, log entry 12. -/
def Obligations.ResetStartsARun : Prop :=
  (∀ s : State, (∀ r, s.resetInput.readReg r = 0) ∧ s.resetInput.pc = 0 ∧ s.resetInput.fsr.fault = false ∧
    s.resetInput.fsr.halted = false ∧ s.resetInput.fsr.cause = none ∧ s.resetInput.running = true ∧
    SameMemory s s.resetInput) ∧
  ∀ (s : State) (image : List Byte), s.resetInput.load image = (s.load image).map State.resetInput

/-- 20_memory.md R66: with an image of length 0 the first step answers `false` with OutOfBounds and no register is
modified. -/
def Obligations.EmptyImageFaults : Prop :=
  ∃ t, State.boot [] = some t ∧ len t = 0 ∧ StepFaults .outOfBounds t
end

