-- ==== Sys2Proof/Laws/Bits.lean ====
section
/-! SUPPORT. Laws of the byte order, of `u32` and `s32`, and of the width byte. -/

namespace Sys2Proof

theorem leBytes_length (n v : Nat) : (leBytes n v).length = n := by
  induction n generalizing v with
  | zero => rfl
  | succ n ih => simp [leBytes, ih]

/-- Reading back the bytes of a value gives the value modulo `256^n`. -/
theorem leValue_leBytes (n v : Nat) : leValue (leBytes n v) = v % 256 ^ n := by
  induction n generalizing v with
  | zero => simp [leBytes, leValue, Nat.mod_one]
  | succ n ih =>
    have hb : (BitVec.ofNat 8 v).toNat = v % 256 := rfl
    rw [leBytes, leValue, ih, hb, Nat.pow_succ', Nat.mod_mul]

theorem leValue_lt (bs : List Byte) : leValue bs < 256 ^ bs.length := by
  induction bs with
  | nil => simp [leValue]
  | cons b bs ih =>
    have := b.isLt
    simp only [leValue, List.length_cons, Nat.pow_succ']
    omega

/-- The bytes of the value of a list of bytes are the list. -/
theorem leBytes_leValue (bs : List Byte) : leBytes bs.length (leValue bs) = bs := by
  induction bs with
  | nil => rfl
  | cons b bs ih =>
    have hb := b.isLt
    have hdiv : leValue (b :: bs) / 256 = leValue bs := by simp only [leValue]; omega
    have hmod : BitVec.ofNat 8 (leValue (b :: bs)) = b := by
      apply BitVec.eq_of_toNat_eq
      simp only [leValue, BitVec.toNat_ofNat]
      omega
    simp only [List.length_cons, leBytes, hdiv, hmod, ih]

/-- The low `n` bytes of a value do not see what lies above them. -/
theorem leBytes_mod (n v : Nat) : leBytes n (v % 256 ^ n) = leBytes n v := by
  rw [← leValue_leBytes]
  conv_lhs => rw [← leBytes_length n v]
  rw [leBytes_length n v]
  have := leBytes_leValue (leBytes n v)
  rwa [leBytes_length] at this

theorem u32_natCast (v : Nat) : u32 (v : Int) = BitVec.ofNat 32 v := by
  simp [u32]

theorem u32_toNat (w : Word) : u32 (w.toNat : Int) = w := by
  simp [u32]

/-- `s32` is Lean's own two's-complement reading. -/
theorem s32_eq_toInt (v : Word) : s32 v = v.toInt := by
  have := v.isLt
  simp only [s32, BitVec.toInt]
  split <;> split <;> first | rfl | omega

/-- The legal width bytes and the widths they name. -/
theorem accessWidth?_eq_some {w : Byte} {n : Nat} :
    accessWidth? w = some n ↔ w.toNat = n ∧ (n = 1 ∨ n = 2 ∨ n = 4 ∨ n = 8) := by
  have key : (w = 1 ∨ w = 2 ∨ w = 4 ∨ w = 8) ↔ (w.toNat = 1 ∨ w.toNat = 2 ∨ w.toNat = 4 ∨ w.toNat = 8) := by
    simp only [← BitVec.toNat_inj]
    exact Iff.rfl
  unfold accessWidth?
  split
  · next h => rw [key] at h; constructor <;> grind
  · next h => rw [key] at h; constructor <;> grind

/-- The opcode table's lookup undoes the opcode byte. -/
theorem Opcode.ofByte?_byte (op : Opcode) : Opcode.ofByte? op.byte = some op := by
  cases op <;> rfl

/-- The lookup finds an opcode only at its own byte. -/
theorem Opcode.byte_of_ofByte? {b : Byte} {op : Opcode} (h : Opcode.ofByte? b = some op) : b = op.byte := by
  apply BitVec.eq_of_toNat_eq
  unfold Opcode.ofByte? at h
  split at h
  case h_12 => cases h
  all_goals (cases h; assumption)

/-- The lookup fails exactly above 0x0A. -/
theorem Opcode.ofByte?_eq_none {b : Byte} : Opcode.ofByte? b = none ↔ 0x0B ≤ b.toNat := by
  unfold Opcode.ofByte?
  split <;> simp_all
  omega

theorem Opcode.length_pos (op : Opcode) : 1 ≤ op.length := by cases op <;> decide

end Sys2Proof
end

