-- ==== Sys2Proof/Laws/Memory.lean ====
section
/-! SUPPORT. Laws of the memory's cells: every operation keeps the canonical form and stays inside the image, a read after a
write, and the frame of a write. -/

namespace Sys2Proof.Machine

namespace Memory

theorem wfFrom_mono {lo lo' : Nat} (h : lo ≤ lo') {m : Memory} (hm : wfFrom lo' m = true) : wfFrom lo m = true := by
  cases m with
  | nil => rfl
  | cons c rest =>
    simp only [wfFrom, Bool.and_eq_true, decide_eq_true_eq] at hm ⊢
    exact ⟨⟨le_trans h hm.1.1, hm.1.2⟩, hm.2⟩

/-- Below the first cell nothing is listed. -/
theorem read_of_lt {lo a : Nat} {m : Memory} (hm : wfFrom lo m = true) (ha : a < lo) : m.read a = unlisted := by
  induction m generalizing lo with
  | nil => rfl
  | cons c rest ih =>
    simp only [wfFrom, Bool.and_eq_true, decide_eq_true_eq] at hm
    simp only [read]
    rw [if_neg (by omega)]
    exact ih hm.2 (by omega)

theorem wfFrom_cons {lo a : Nat} {b : Byte} {rest : Memory} (ha : lo ≤ a) (hr : wfFrom (a + 1) rest = true) :
    wfFrom lo (cons a b rest) = true := by
  unfold cons
  split
  · exact wfFrom_mono (by omega) hr
  · next hb => simp [wfFrom, ha, hb, hr]

theorem wfFrom_write {lo a : Nat} {b : Byte} {m : Memory} (hm : wfFrom lo m = true) (ha : lo ≤ a) :
    wfFrom lo (m.write a b) = true := by
  induction m generalizing lo with
  | nil => exact wfFrom_cons ha rfl
  | cons c rest ih =>
    have hc := hm
    simp only [wfFrom, Bool.and_eq_true, decide_eq_true_eq] at hc
    simp only [write]
    split
    · next hlt => exact wfFrom_cons ha (by simp [wfFrom, hc.1.2, hc.2]; omega)
    · split
      · next heq => exact wfFrom_cons ha (heq ▸ hc.2)
      · simp only [wfFrom, Bool.and_eq_true, decide_eq_true_eq]
        exact ⟨hc.1, ih hc.2 (by omega)⟩

/-- Writing one byte keeps the canonical form. -/
theorem wf_write {m : Memory} (a : Nat) (b : Byte) (hm : m.wf = true) : (m.write a b).wf = true :=
  wfFrom_write hm (Nat.zero_le a)

/-- Writing bytes keeps the canonical form. -/
theorem wf_writeBytes {m : Memory} (a : Nat) (bs : List Byte) (hm : m.wf = true) : (m.writeBytes a bs).wf = true := by
  induction bs generalizing m a with
  | nil => exact hm
  | cons b bs ih => exact ih (a + 1) (wf_write a b hm)

/-- An image's bytes are in the canonical form. -/
theorem wf_ofBytes (bs : List Byte) : (ofBytes 0 bs).wf = true := by
  suffices h : ∀ a, wfFrom a (ofBytes a bs) = true from h 0
  induction bs with
  | nil => intro a; rfl
  | cons b bs ih => intro a; exact wfFrom_cons le_rfl (ih (a + 1))

/-- The reset state's memory is in the canonical form. -/
theorem wf_reset : State.reset.mem.wf = true := rfl

/-- A read after a write to the same address. -/
theorem read_write_self {lo a : Nat} {b : Byte} {m : Memory} (hm : wfFrom lo m = true) :
    (m.write a b).read a = b := by
  have hcons : ∀ {rest : Memory}, rest.read a = unlisted → (cons a b rest).read a = b := by
    intro rest hr
    unfold cons
    split
    · next hb => rw [hr, hb]
    · simp [read]
  induction m generalizing lo with
  | nil => exact hcons rfl
  | cons c rest ih =>
    have hc := hm
    simp only [wfFrom, Bool.and_eq_true, decide_eq_true_eq] at hc
    simp only [write]
    split
    · exact hcons (read_of_lt (lo := c.1) (by simp [wfFrom, hc.1.2, hc.2]) (by omega))
    · split
      · next heq => exact hcons (read_of_lt hc.2 (by omega))
      · next hne => simp only [read]; rw [if_neg hne]; exact ih hc.2

/-- A write leaves every other address alone. -/
theorem read_write_ne {a c : Nat} (h : c ≠ a) (b : Byte) (m : Memory) : (m.write a b).read c = m.read c := by
  have hcons : ∀ rest : Memory, (cons a b rest).read c = rest.read c := by
    intro rest
    unfold cons
    split
    · rfl
    · simp [read, h]
  induction m with
  | nil => exact hcons []
  | cons d rest ih =>
    simp only [write]
    split
    · rw [hcons]
    · split
      · next heq => rw [hcons]; simp only [read]; rw [if_neg (by omega)]
      · simp only [read, ih]

/-- Writing bytes leaves every address outside them alone. -/
theorem read_writeBytes_outside {a c : Nat} {bs : List Byte} (h : c < a ∨ a + bs.length ≤ c) (m : Memory) :
    (m.writeBytes a bs).read c = m.read c := by
  induction bs generalizing m a with
  | nil => rfl
  | cons b bs ih =>
    simp only [List.length_cons] at h
    simp only [writeBytes]
    rw [ih (by omega), read_write_ne (by omega)]

/-- A read inside the bytes just written. -/
theorem read_writeBytes_inside {a i : Nat} {bs : List Byte} (hi : i < bs.length) {m : Memory} (hm : m.wf = true) :
    (m.writeBytes a bs).read (a + i) = bs[i] := by
  induction bs generalizing m a i with
  | nil => simp at hi
  | cons b bs ih =>
    simp only [writeBytes]
    cases i with
    | zero => rw [read_writeBytes_outside (by omega)]; exact read_write_self (lo := 0) hm
    | succ i =>
      have hi' : i < bs.length := by simpa using hi
      have := ih (a := a + 1) hi' (wf_write a b hm)
      rw [show a + (i + 1) = a + 1 + i by omega, this]
      rfl

theorem readBytes_length (m : Memory) (a n : Nat) : (m.readBytes a n).length = n := by
  induction n generalizing a with
  | zero => rfl
  | succ n ih => simp [readBytes, ih]

theorem getElem_readBytes (m : Memory) (a n i : Nat) (h : i < (m.readBytes a n).length) :
    (m.readBytes a n)[i] = m.read (a + i) := by
  induction n generalizing a i with
  | zero => simp [readBytes] at h
  | succ n ih =>
    cases i with
    | zero => rfl
    | succ i =>
      simp only [readBytes, List.getElem_cons_succ]
      rw [ih]
      congr 1
      omega

/-- Two memories that agree on a range read the same bytes there. -/
theorem readBytes_congr {m m' : Memory} {a n : Nat} (h : ∀ i < n, m.read (a + i) = m'.read (a + i)) :
    m.readBytes a n = m'.readBytes a n := by
  apply List.ext_getElem
  · simp [readBytes_length]
  · intro i h1 h2
    rw [getElem_readBytes, getElem_readBytes]
    exact h i (by simpa [readBytes_length] using h1)

theorem readBytes_add (m : Memory) (a n k : Nat) :
    m.readBytes a (n + k) = m.readBytes a n ++ m.readBytes (a + n) k := by
  induction n generalizing a with
  | zero => simp [readBytes]
  | succ n ih =>
    rw [Nat.add_right_comm]
    simp only [readBytes, ih, List.cons_append]
    rw [show a + 1 + n = a + (n + 1) by omega]

/-- The bytes just written are read back. -/
theorem readBytes_writeBytes (a : Nat) (bs : List Byte) {m : Memory} (hm : m.wf = true) :
    (m.writeBytes a bs).readBytes a bs.length = bs := by
  apply List.ext_getElem
  · simp [readBytes_length]
  · intro i h1 h2
    rw [getElem_readBytes, read_writeBytes_inside h2 hm]

theorem within_cons {len a : Nat} {b : Byte} {rest : Memory} (ha : a < len) (hr : within len rest = true) :
    within len (cons a b rest) = true := by
  unfold cons
  split
  · exact hr
  · simp only [within, List.all_cons, Bool.and_eq_true, decide_eq_true_eq] at hr ⊢
    exact ⟨ha, hr⟩

theorem within_write {len a : Nat} {b : Byte} {m : Memory} (ha : a < len) (hm : within len m = true) :
    within len (m.write a b) = true := by
  induction m with
  | nil => exact within_cons ha rfl
  | cons c rest ih =>
    have hc := hm
    simp only [within, List.all_cons, Bool.and_eq_true, decide_eq_true_eq] at hc
    simp only [write]
    split
    · exact within_cons ha hm
    · split
      · exact within_cons ha hc.2
      · simp only [within, List.all_cons, Bool.and_eq_true, decide_eq_true_eq]
        exact ⟨hc.1, ih hc.2⟩

/-- Writing bytes inside the image lists no address outside it. -/
theorem within_writeBytes {len a : Nat} {bs : List Byte} {m : Memory} (ha : a + bs.length ≤ len)
    (hm : within len m = true) : within len (m.writeBytes a bs) = true := by
  induction bs generalizing m a with
  | nil => exact hm
  | cons b bs ih =>
    simp only [List.length_cons] at ha
    exact ih (by omega) (within_write (by omega) hm)

/-- The bytes of an image list no address outside it. -/
theorem within_ofBytes {len a : Nat} {bs : List Byte} (ha : a + bs.length ≤ len) :
    within len (ofBytes a bs) = true := by
  induction bs generalizing a with
  | nil => rfl
  | cons b bs ih =>
    simp only [List.length_cons] at ha
    exact within_cons (by omega) (ih (by omega))

end Memory

end Sys2Proof.Machine
end

