-- ==== Sys2Proof/Laws/State.lean ====
section
/-! SUPPORT. One lemma per field per update of State, each true by rfl, so that no proof unfolds a record update. -/

namespace Sys2Proof.Machine

section updates

variable (s : State) (r : Fin Config.nreg) (v t : Word) (len : Nat) (k : FaultKind)

@[simp] theorem State.writeReg_x : (s.writeReg r v).x = s.x.set r v := rfl
@[simp] theorem State.writeReg_pc : (s.writeReg r v).pc = s.pc := rfl
@[simp] theorem State.writeReg_fsr : (s.writeReg r v).fsr = s.fsr := rfl
@[simp] theorem State.writeReg_mem : (s.writeReg r v).mem = s.mem := rfl
@[simp] theorem State.writeReg_imageLen : (s.writeReg r v).imageLen = s.imageLen := rfl

@[simp] theorem State.jump_x : (s.jump t).x = s.x := rfl
@[simp] theorem State.jump_pc : (s.jump t).pc = t := rfl
@[simp] theorem State.jump_fsr : (s.jump t).fsr = s.fsr := rfl
@[simp] theorem State.jump_mem : (s.jump t).mem = s.mem := rfl
@[simp] theorem State.jump_imageLen : (s.jump t).imageLen = s.imageLen := rfl

@[simp] theorem State.advance_x : (s.advance len).x = s.x := rfl
@[simp] theorem State.advance_pc : (s.advance len).pc = u32 (s.pc.toNat + len) := rfl
@[simp] theorem State.advance_fsr : (s.advance len).fsr = s.fsr := rfl
@[simp] theorem State.advance_mem : (s.advance len).mem = s.mem := rfl
@[simp] theorem State.advance_imageLen : (s.advance len).imageLen = s.imageLen := rfl

@[simp] theorem State.raise_x : (s.raise k).x = s.x := rfl
@[simp] theorem State.raise_pc : (s.raise k).pc = s.pc := rfl
@[simp] theorem State.raise_fsr : (s.raise k).fsr = s.fsr.setFault k := rfl
@[simp] theorem State.raise_mem : (s.raise k).mem = s.mem := rfl
@[simp] theorem State.raise_imageLen : (s.raise k).imageLen = s.imageLen := rfl

@[simp] theorem State.latchHalted_x : s.latchHalted.x = s.x := rfl
@[simp] theorem State.latchHalted_pc : s.latchHalted.pc = s.pc := rfl
@[simp] theorem State.latchHalted_fsr : s.latchHalted.fsr = s.fsr.setHalted := rfl
@[simp] theorem State.latchHalted_mem : s.latchHalted.mem = s.mem := rfl
@[simp] theorem State.latchHalted_imageLen : s.latchHalted.imageLen = s.imageLen := rfl

@[simp] theorem State.storeBytes_x (a : Nat) (bs : List Byte) : (s.storeBytes a bs).x = s.x := rfl
@[simp] theorem State.storeBytes_pc (a : Nat) (bs : List Byte) : (s.storeBytes a bs).pc = s.pc := rfl
@[simp] theorem State.storeBytes_fsr (a : Nat) (bs : List Byte) : (s.storeBytes a bs).fsr = s.fsr := rfl
@[simp] theorem State.storeBytes_mem (a : Nat) (bs : List Byte) : (s.storeBytes a bs).mem = s.mem.writeBytes a bs := rfl
@[simp] theorem State.storeBytes_imageLen (a : Nat) (bs : List Byte) : (s.storeBytes a bs).imageLen = s.imageLen := rfl

@[simp] theorem State.resetInput_x : s.resetInput.x = Vector.replicate Config.nreg 0 := rfl
@[simp] theorem State.resetInput_pc : s.resetInput.pc = 0 := rfl
@[simp] theorem State.resetInput_fsr : s.resetInput.fsr = FSR.reset := rfl
@[simp] theorem State.resetInput_mem : s.resetInput.mem = s.mem := rfl
@[simp] theorem State.resetInput_imageLen : s.resetInput.imageLen = s.imageLen := rfl

@[simp] theorem FSR.setFault_fault (f : FSR) : (f.setFault k).fault = true := rfl
@[simp] theorem FSR.setFault_halted (f : FSR) : (f.setFault k).halted = f.halted := rfl
@[simp] theorem FSR.setFault_cause (f : FSR) : (f.setFault k).cause = some k := rfl
@[simp] theorem FSR.setHalted_fault (f : FSR) : f.setHalted.fault = f.fault := rfl
@[simp] theorem FSR.setHalted_halted (f : FSR) : f.setHalted.halted = true := rfl
@[simp] theorem FSR.setHalted_cause (f : FSR) : f.setHalted.cause = f.cause := rfl

@[simp] theorem State.readReg_jump : (s.jump t).readReg r = s.readReg r := rfl
@[simp] theorem State.readReg_advance : (s.advance len).readReg r = s.readReg r := rfl
@[simp] theorem State.readReg_storeBytes (a : Nat) (bs : List Byte) : (s.storeBytes a bs).readReg r = s.readReg r := rfl
@[simp] theorem State.readReg_raise : (s.raise k).readReg r = s.readReg r := rfl
@[simp] theorem State.readReg_latchHalted : s.latchHalted.readReg r = s.readReg r := rfl

end updates

/-- Reading a register after writing one. -/
theorem State.readReg_writeReg (s : State) (r j : Fin Config.nreg) (v : Word) :
    (s.writeReg r v).readReg j = if j = r then v else s.readReg j := by
  simp only [State.readReg, State.writeReg, Fin.getElem_fin, Vector.getElem_set, Fin.ext_iff]
  split <;> split <;> first | rfl | omega

@[simp] theorem State.readReg_writeReg_self (s : State) (r : Fin Config.nreg) (v : Word) :
    (s.writeReg r v).readReg r = v := by
  simp [State.readReg_writeReg]

/-- The registers of a state are its eight reads. -/
theorem State.x_ext {s t : State} (h : ∀ r, s.readReg r = t.readReg r) : s.x = t.x := by
  apply Vector.ext
  intro i hi
  exact h ⟨i, hi⟩

/-- A running machine has neither status bit set. -/
theorem State.running_iff (s : State) : s.running = true ↔ s.fsr.fault = false ∧ s.fsr.halted = false := by
  simp [State.running, FSR.terminal]

end Sys2Proof.Machine
end

