-- ==== Sys2Proof/Laws/Ops.lean ====
section
/-! SUPPORT. One lemma per shared operation that says all it can answer, and the inversion of exec: what a next state of an
instruction can look like. -/

namespace Sys2Proof.Machine

theorem State.inBounds_iff (s : State) (a n : Nat) : s.inBounds a n = true ↔ a + n ≤ s.imageLen.toNat := by
  simp [State.inBounds]

/-- A read that is in bounds. -/
theorem State.memRead_of_le {s : State} {a : Word} {n : Nat} (h : a.toNat + n ≤ s.imageLen.toNat) :
    s.memRead a n = .ok (leValue (s.mem.readBytes a.toNat n)) := by
  simp [State.memRead, State.inBounds, h]

/-- A read that is not. -/
theorem State.memRead_of_gt {s : State} {a : Word} {n : Nat} (h : s.imageLen.toNat < a.toNat + n) :
    s.memRead a n = .error .outOfBounds := by
  simp [State.memRead, State.inBounds, h]

/-- A write that is in bounds. -/
theorem State.memWrite_of_le {s : State} {a : Word} {n v : Nat} (h : a.toNat + n ≤ s.imageLen.toNat) :
    s.memWrite a n v = .ok (s.storeBytes a.toNat (leBytes n v)) := by
  simp [State.memWrite, State.inBounds, h]

/-- A write that is not. -/
theorem State.memWrite_of_gt {s : State} {a : Word} {n v : Nat} (h : s.imageLen.toNat < a.toNat + n) :
    s.memWrite a n v = .error .outOfBounds := by
  simp [State.memWrite, State.inBounds, h]

theorem regIndex?_of_lt {b : Byte} (h : b.toNat < Config.nreg) : regIndex? b = some ⟨b.toNat, h⟩ := by
  simp [regIndex?, h]

theorem regIndex?_of_ge {b : Byte} (h : Config.nreg ≤ b.toNat) : regIndex? b = none := by
  simp [regIndex?]; omega

/-- A register operand with a legal index byte goes on with that register. -/
theorem withReg_of_lt {b : Byte} (h : b.toNat < Config.nreg) (s : State) (go : Fin Config.nreg → Result) :
    withReg b s go = go ⟨b.toNat, h⟩ := by
  rw [withReg, regIndex?_of_lt h]

/-- A register operand with another index byte raises InvalidRegister. -/
theorem withReg_of_ge {b : Byte} (h : Config.nreg ≤ b.toNat) (s : State) (go : Fin Config.nreg → Result) :
    withReg b s go = .next (s.raise .invalidRegister) := by
  rw [withReg, regIndex?_of_ge h]; rfl

/-- All a register operand can answer. -/
theorem withReg_next {b : Byte} {s t : State} {go : Fin Config.nreg → Result} (h : withReg b s go = .next t) :
    (Config.nreg ≤ b.toNat ∧ t = s.raise .invalidRegister) ∨ ∃ r : Fin Config.nreg, r.val = b.toNat ∧ go r = .next t := by
  rcases Nat.lt_or_ge b.toNat Config.nreg with hb | hb
  · rw [withReg_of_lt hb] at h; exact .inr ⟨_, rfl, h⟩
  · rw [withReg_of_ge hb] at h; cases h; exact .inl ⟨hb, rfl⟩

/-- All a width operand can answer. -/
theorem withWidth_next {w : Byte} {s t : State} {go : Nat → Result} (h : withWidth w s go = .next t) :
    (accessWidth? w = none ∧ t = s.raise .invalidOpcode) ∨ ∃ n, accessWidth? w = some n ∧ go n = .next t := by
  unfold withWidth at h
  split at h
  · next hw => cases h; exact .inl ⟨hw, rfl⟩
  · next n hw => exact .inr ⟨n, hw, h⟩

/-- All an instruction of the ALU can answer. -/
theorem execAlu_next {f : Word → Word → Except FaultKind Word} {regA regB regC : Byte} {s t : State}
    (h : execAlu f regA regB regC s = .next t) :
    (∃ k, t = s.raise k) ∨ ∃ (a b c : Fin Config.nreg) (v : Word), a.val = regA.toNat ∧ b.val = regB.toNat ∧
      c.val = regC.toNat ∧ f (s.readReg b) (s.readReg c) = .ok v ∧ t = (s.writeReg a v).advance 4 := by
  rcases withReg_next h with ⟨-, rfl⟩ | ⟨a, ha, h⟩
  · exact .inl ⟨_, rfl⟩
  rcases withReg_next h with ⟨-, rfl⟩ | ⟨b, hb, h⟩
  · exact .inl ⟨_, rfl⟩
  rcases withReg_next h with ⟨-, rfl⟩ | ⟨c, hc, h⟩
  · exact .inl ⟨_, rfl⟩
  split at h
  · cases h; exact .inl ⟨_, rfl⟩
  · next v hv => cases h; exact .inr ⟨a, b, c, v, ha, hb, hc, hv, rfl⟩

/-- All LOADI can answer. -/
theorem execLoadi_next {reg : Byte} {imm : Word} {s t : State} (h : execLoadi reg imm s = .next t) :
    (∃ k, t = s.raise k) ∨ ∃ r : Fin Config.nreg, r.val = reg.toNat ∧ t = (s.writeReg r imm).advance 6 := by
  rcases withReg_next h with ⟨-, rfl⟩ | ⟨r, hr, h⟩
  · exact .inl ⟨_, rfl⟩
  · cases h; exact .inr ⟨r, hr, rfl⟩

/-- All LOAD can answer. -/
theorem execLoad_next {reg addrReg width : Byte} {s t : State} (h : execLoad reg addrReg width s = .next t) :
    (∃ k, t = s.raise k) ∨ ∃ (n : Nat) (r ra : Fin Config.nreg), accessWidth? width = some n ∧ r.val = reg.toNat ∧
      ra.val = addrReg.toNat ∧ (effectiveAddress ra s).toNat + n ≤ s.imageLen.toNat ∧
      t = (s.writeReg r (loadData (leValue (s.mem.readBytes (effectiveAddress ra s).toNat n)))).advance 4 := by
  rcases withWidth_next h with ⟨-, rfl⟩ | ⟨n, hn, h⟩
  · exact .inl ⟨_, rfl⟩
  rcases withReg_next h with ⟨-, rfl⟩ | ⟨r, hr, h⟩
  · exact .inl ⟨_, rfl⟩
  rcases withReg_next h with ⟨-, rfl⟩ | ⟨ra, hra, h⟩
  · exact .inl ⟨_, rfl⟩
  rcases Nat.lt_or_ge s.imageLen.toNat ((effectiveAddress ra s).toNat + n) with hb | hb
  · rw [State.memRead_of_gt hb] at h; cases h; exact .inl ⟨_, rfl⟩
  · rw [State.memRead_of_le hb] at h; cases h; exact .inr ⟨n, r, ra, hn, hr, hra, hb, rfl⟩

/-- All STORE can answer. -/
theorem execStore_next {addrReg reg width : Byte} {s t : State} (h : execStore addrReg reg width s = .next t) :
    (∃ k, t = s.raise k) ∨ ∃ (n : Nat) (ra r : Fin Config.nreg), accessWidth? width = some n ∧ ra.val = addrReg.toNat ∧
      r.val = reg.toNat ∧ (effectiveAddress ra s).toNat + n ≤ s.imageLen.toNat ∧
      t = (s.storeBytes (effectiveAddress ra s).toNat (leBytes n (storeData n (s.readReg r)))).advance 4 := by
  rcases withWidth_next h with ⟨-, rfl⟩ | ⟨n, hn, h⟩
  · exact .inl ⟨_, rfl⟩
  rcases withReg_next h with ⟨-, rfl⟩ | ⟨ra, hra, h⟩
  · exact .inl ⟨_, rfl⟩
  rcases withReg_next h with ⟨-, rfl⟩ | ⟨r, hr, h⟩
  · exact .inl ⟨_, rfl⟩
  rcases Nat.lt_or_ge s.imageLen.toNat ((effectiveAddress ra s).toNat + n) with hb | hb
  · rw [State.memWrite_of_gt hb] at h; cases h; exact .inl ⟨_, rfl⟩
  · rw [State.memWrite_of_le hb] at h; cases h; exact .inr ⟨n, ra, r, hn, hra, hr, hb, rfl⟩

/-- All JZ can answer. -/
theorem execJz_next {reg : Byte} {target : Word} {s t : State} (h : execJz reg target s = .next t) :
    (∃ k, t = s.raise k) ∨ ∃ r : Fin Config.nreg, r.val = reg.toNat ∧
      ((s.readReg r = 0 ∧ t = s.jump target) ∨ (s.readReg r ≠ 0 ∧ t = s.advance 6)) := by
  rcases withReg_next h with ⟨-, rfl⟩ | ⟨r, hr, h⟩
  · exact .inl ⟨_, rfl⟩
  split at h
  · next hz => cases h; exact .inr ⟨r, hr, .inl ⟨hz, rfl⟩⟩
  · next hz => cases h; exact .inr ⟨r, hr, .inr ⟨hz, rfl⟩⟩

/-- All JNZ can answer. -/
theorem execJnz_next {reg : Byte} {target : Word} {s t : State} (h : execJnz reg target s = .next t) :
    (∃ k, t = s.raise k) ∨ ∃ r : Fin Config.nreg, r.val = reg.toNat ∧
      ((s.readReg r ≠ 0 ∧ t = s.jump target) ∨ (s.readReg r = 0 ∧ t = s.advance 6)) := by
  rcases withReg_next h with ⟨-, rfl⟩ | ⟨r, hr, h⟩
  · exact .inl ⟨_, rfl⟩
  split at h
  · next hz => cases h; exact .inr ⟨r, hr, .inl ⟨hz, rfl⟩⟩
  · next hz => cases h; exact .inr ⟨r, hr, .inr ⟨not_not.mp hz, rfl⟩⟩

/-- What an instruction other than HALT, or the taking of a fault, writes: the shapes of its next state, with the
instruction that can have the shape. -/
inductive Wrote (i : Instr) (s : State) : State → Prop where
  /-- A machine fault was taken. -/
  | raised (k : FaultKind) : Wrote i s (s.raise k)
  /-- One register, the one its first register byte names, and the advance. -/
  | register (r : Fin Config.nreg) (v : Word) (hr : i.regBytes.head? = some (BitVec.ofNat 8 r.val))
      (hop : i.opcode ∈ [.loadi, .add, .sub, .mul, .div, .load]) : Wrote i s ((s.writeReg r v).advance i.length)
  /-- The bytes of a STORE, inside the image, and the advance. -/
  | memory (ra r : Fin Config.nreg) (width : Byte) (n : Nat)
      (hi : i = .store (BitVec.ofNat 8 ra.val) (BitVec.ofNat 8 r.val) width) (hn : accessWidth? width = some n)
      (h : (effectiveAddress ra s).toNat + n ≤ s.imageLen.toNat) :
      Wrote i s ((s.storeBytes (effectiveAddress ra s).toNat (leBytes n (storeData n (s.readReg r)))).advance i.length)
  /-- The program counter alone, to the target. -/
  | jumped (target : Word) (hop : i.opcode ∈ [.jmp, .jz, .jnz]) : Wrote i s (s.jump target)
  /-- The program counter alone, by the advance. -/
  | advanced (hop : i.opcode ∈ [.jz, .jnz]) : Wrote i s (s.advance i.length)

theorem byte_of_val {b : Byte} {r : Fin Config.nreg} (h : r.val = b.toNat) : b = BitVec.ofNat 8 r.val := by
  rw [h]; simp

theorem execAlu_wrote {f : Word → Word → Except FaultKind Word} {regA regB regC : Byte} {s t : State} {i : Instr}
    (hlen : i.length = 4) (hreg : i.regBytes.head? = some regA) (hop : i.opcode ∈ [.loadi, .add, .sub, .mul, .div, .load])
    (h : execAlu f regA regB regC s = .next t) : Wrote i s t := by
  rcases execAlu_next h with ⟨k, rfl⟩ | ⟨a, b, c, v, ha, -, -, -, rfl⟩
  · exact .raised k
  · rw [← hlen]; exact .register a v (by rw [hreg, byte_of_val ha]) hop

/-- The inversion of exec: HALT latches FSR.halted, and every next state of another instruction has one of the shapes of
`Wrote`. -/
theorem exec_wrote {i : Instr} {s t : State} (h : exec i s = .next t) : (i = .halt ∧ t = s.latchHalted) ∨ Wrote i s t := by
  cases i with
  | halt => cases h; exact .inl ⟨rfl, rfl⟩
  | loadi reg imm =>
    rcases execLoadi_next h with ⟨k, rfl⟩ | ⟨r, hr, rfl⟩
    · exact .inr (.raised k)
    · exact .inr (.register r imm (congrArg some (byte_of_val hr)) (by simp [Instr.opcode]))
  | add a b c => exact .inr (execAlu_wrote (f := aluAdd) rfl rfl (by simp [Instr.opcode]) h)
  | sub a b c => exact .inr (execAlu_wrote (f := aluSub) rfl rfl (by simp [Instr.opcode]) h)
  | mul a b c => exact .inr (execAlu_wrote (f := aluMul) rfl rfl (by simp [Instr.opcode]) h)
  | div a b c => exact .inr (execAlu_wrote (f := aluDiv) rfl rfl (by simp [Instr.opcode]) h)
  | load reg addrReg width =>
    rcases execLoad_next h with ⟨k, rfl⟩ | ⟨n, r, ra, -, hr, -, -, rfl⟩
    · exact .inr (.raised k)
    · exact .inr (.register r _ (congrArg some (byte_of_val hr)) (by simp [Instr.opcode]))
  | store addrReg reg width =>
    rcases execStore_next h with ⟨k, rfl⟩ | ⟨n, ra, r, hn, hra, hr, hb, rfl⟩
    · exact .inr (.raised k)
    · exact .inr (.memory ra r width n (by rw [← byte_of_val hra, ← byte_of_val hr]) hn hb)
  | jmp target => cases h; exact .inr (.jumped _ (by simp [Instr.opcode]))
  | jz reg target =>
    rcases execJz_next h with ⟨k, rfl⟩ | ⟨r, -, ⟨-, rfl⟩ | ⟨-, rfl⟩⟩
    · exact .inr (.raised k)
    · exact .inr (.jumped _ (by simp [Instr.opcode]))
    · exact .inr (.advanced (by simp [Instr.opcode]))
  | jnz reg target =>
    rcases execJnz_next h with ⟨k, rfl⟩ | ⟨r, -, ⟨-, rfl⟩ | ⟨-, rfl⟩⟩
    · exact .inr (.raised k)
    · exact .inr (.jumped _ (by simp [Instr.opcode]))
    · exact .inr (.advanced (by simp [Instr.opcode]))

end Sys2Proof.Machine
end

