-- ==== Sys2Proof/Laws/PerInstr.lean ====
section
/-! SUPPORT. Per-instruction facts about the encoding: the number of bytes an instruction encodes to is the length its opcode
has in the table, and its first byte is looked up as its opcode (30_encoding.md R82, R88). -/

namespace Sys2Proof.Laws.EncodedForm

/-- The encoding of an instruction has the table's length and begins with the table's byte. -/
def Statement (i : Instr) : Prop :=
  (encode i).length = i.length ∧ (encode i).head? = some i.opcode.byte ∧ Opcode.ofByte? i.opcode.byte = some i.opcode

theorem of_operands (i : Instr) (h : i.operandBytes.length + 1 = i.opcode.length) : Statement i :=
  ⟨h, rfl, Opcode.ofByte?_byte i.opcode⟩

theorem halt : Statement .halt := of_operands _ rfl
theorem loadi (reg : Byte) (imm32 : Word) : Statement (.loadi reg imm32) :=
  of_operands _ (by simp [Instr.operandBytes, leBytes_length, Instr.opcode, Opcode.length])
theorem add (regA regB regC : Byte) : Statement (.add regA regB regC) := of_operands _ rfl
theorem sub (regA regB regC : Byte) : Statement (.sub regA regB regC) := of_operands _ rfl
theorem mul (regA regB regC : Byte) : Statement (.mul regA regB regC) := of_operands _ rfl
theorem div (regA regB regC : Byte) : Statement (.div regA regB regC) := of_operands _ rfl
theorem load (reg addrReg width : Byte) : Statement (.load reg addrReg width) := of_operands _ rfl
theorem store (addrReg reg width : Byte) : Statement (.store addrReg reg width) := of_operands _ rfl
theorem jmp (target32 : Word) : Statement (.jmp target32) :=
  of_operands _ (by simp [Instr.operandBytes, leBytes_length, Instr.opcode, Opcode.length])
theorem jz (reg : Byte) (target32 : Word) : Statement (.jz reg target32) :=
  of_operands _ (by simp [Instr.operandBytes, leBytes_length, Instr.opcode, Opcode.length])
theorem jnz (reg : Byte) (target32 : Word) : Statement (.jnz reg target32) :=
  of_operands _ (by simp [Instr.operandBytes, leBytes_length, Instr.opcode, Opcode.length])

end Sys2Proof.Laws.EncodedForm
end

