-- ==== Sys2Proof/Laws/Step.lean ====
section
/-! SUPPORT. The fetch case by case (40_step_dispatch_halt.md R112, R113) and the step from what the fetch answers. -/

namespace Sys2Proof.Machine

theorem fetchBytes_of_oob {s : State} (h : s.imageLen.toNat ≤ s.pc.toNat) : fetchBytes s = .error .outOfBounds := by
  rw [fetchBytes, State.memRead_of_gt (by omega)]

/-- The opcode byte the fetch looks up is the byte at `pc`. -/
theorem fetchBytes_of_lt {s : State} (h : s.pc.toNat < s.imageLen.toNat) :
    fetchBytes s =
      match Opcode.ofByte? (s.mem.read s.pc.toNat) with
      | none => .error .invalidOpcode
      | some op =>
        if s.pc.toNat + op.length ≤ s.imageLen.toNat then .ok (s.mem.readBytes s.pc.toNat op.length)
        else .error .outOfBounds := by
  have hv : leValue (s.mem.readBytes s.pc.toNat 1) = (s.mem.read s.pc.toNat).toNat := by
    simp [Memory.readBytes, leValue]
  have hb : BitVec.ofNat 8 (s.mem.read s.pc.toNat).toNat = s.mem.read s.pc.toNat := by simp
  rw [fetchBytes, State.memRead_of_le (by omega)]
  simp only [hv, hb]
  cases Opcode.ofByte? (s.mem.read s.pc.toNat) with
  | none => rfl
  | some op =>
    have hlen : op.length = (op.length - 1) + 1 := by have := op.length_pos; omega
    have hbytes : s.mem.readBytes s.pc.toNat op.length =
        s.mem.read s.pc.toNat :: s.mem.readBytes (s.pc.toNat + 1) (op.length - 1) := by
      rw [hlen]; rfl
    simp only [State.inBounds_iff, hbytes]

/-- An instruction that fits in the image is decoded from its own bytes. -/
theorem fetchDecode_of_fits {s : State} {op : Opcode} (hop : Opcode.ofByte? (s.mem.read s.pc.toNat) = some op)
    (hfit : s.pc.toNat + op.length ≤ s.imageLen.toNat) :
    fetchDecode s =
      match decode (s.mem.readBytes s.pc.toNat op.length) with
      | .error r => .error (rejectFault r)
      | .ok (i, _) => .ok i := by
  have := op.length_pos
  have hbytes : fetchBytes s = .ok (s.mem.readBytes s.pc.toNat op.length) := by
    rw [fetchBytes_of_lt (by omega)]
    simp [hop, hfit]
  cases hd : decode (s.mem.readBytes s.pc.toNat op.length) <;> simp [fetchDecode, hbytes, hd]

theorem fetchDecode_of_oob {s : State} (h : s.imageLen.toNat ≤ s.pc.toNat) : fetchDecode s = .error .outOfBounds := by
  rw [fetchDecode, fetchBytes_of_oob h]

theorem fetchDecode_of_illegal {s : State} (h : s.pc.toNat < s.imageLen.toNat)
    (hop : Opcode.ofByte? (s.mem.read s.pc.toNat) = none) : fetchDecode s = .error .invalidOpcode := by
  rw [fetchDecode, fetchBytes_of_lt h]
  simp [hop]

theorem fetchDecode_of_short {s : State} {op : Opcode} (h : s.pc.toNat < s.imageLen.toNat)
    (hop : Opcode.ofByte? (s.mem.read s.pc.toNat) = some op) (hshort : s.imageLen.toNat < s.pc.toNat + op.length) :
    fetchDecode s = .error .outOfBounds := by
  rw [fetchDecode, fetchBytes_of_lt h]
  simp only [hop]
  rw [if_neg (by omega)]

theorem step_of_terminal {s : State} (h : s.running = false) : step s = .next s := by
  have : s.fsr.terminal = true := by simpa [State.running] using h
  simp [step, this]

theorem State.running_eq_false (s : State) :
    s.running = false ↔ s.fsr.fault = true ∨ s.fsr.halted = true := by
  cases h1 : s.fsr.fault <;> cases h2 : s.fsr.halted <;> simp [State.running, FSR.terminal, h1, h2]

theorem step_of_running {s : State} (h : s.running = true) :
    step s = match fetchDecode s with
      | .error k => .next (s.raise k)
      | .ok i => exec i s := by
  have : s.fsr.terminal = false := by simpa [State.running] using h
  simp only [step, this]
  cases fetchDecode s <;> rfl

/-- All a step can do: leave a terminal state alone, take the fault of its fetch or decode, latch FSR.halted, or write what
the instruction it fetched writes. -/
theorem step_wrote {s t : State} (h : step s = .next t) :
    (s.running = false ∧ t = s) ∨ (s.running = true ∧ ((∃ k, fetchDecode s = .error k ∧ t = s.raise k) ∨
      (fetchDecode s = .ok .halt ∧ t = s.latchHalted) ∨ ∃ i, fetchDecode s = .ok i ∧ Wrote i s t)) := by
  cases hr : s.running with
  | false => rw [step_of_terminal hr] at h; cases h; exact .inl ⟨rfl, rfl⟩
  | true =>
    rw [step_of_running hr] at h
    split at h
    · next k hk => cases h; exact .inr ⟨rfl, .inl ⟨k, hk, rfl⟩⟩
    · next i hi =>
      rcases exec_wrote h with ⟨rfl, ht⟩ | hw
      · exact .inr ⟨rfl, .inr (.inl ⟨hi, ht⟩)⟩
      · exact .inr ⟨rfl, .inr (.inr ⟨i, hi, hw⟩)⟩

theorem after_of_next {s t : State} (h : step s = .next t) : s.after = t := by
  rw [State.after, h]

theorem stepAnswer_of_next {s t : State} (h : step s = .next t) : stepAnswer s = t.running := by
  rw [stepAnswer, h]

end Sys2Proof.Machine
end

