-- ==== Sys2Proof/Tests/Slice0.lean ====
section
/-! SUPPORT. Tests of the model. The expected results are those of 95_test_vectors.md, whose vector each test names, or are
read off the encodings of 30_encoding.md; then, for every statement that has hypotheses, witnesses that meet them. -/

namespace Sys2Proof.Tests

open Sys2Proof Sys2Proof.Machine Sys2Proof.Spec

/-- A running machine with an image at 0, some registers set, and a `pc` (95_test_vectors.md section 0). -/
def at_ (image : List Byte) (regs : List (Fin 8 × Word)) (pc : Word) : State :=
  regs.foldl (fun s r => s.writeReg r.1 r.2)
    { State.reset with pc := pc, mem := Memory.ofBytes 0 image, imageLen := BitVec.ofNat 32 image.length }

/-- The 16-byte image of 95_test_vectors.md section 2.5 with an instruction at 0. -/
def at16 (i0 i1 i2 i3 : Byte) (regs : List (Fin 8 × Word)) : State :=
  at_ [i0, i1, i2, i3, 0, 0, 0, 0, 0x11, 0x22, 0x33, 0x84, 0x55, 0x66, 0x77, 0x88] regs 0

/-! ### WellFormed: each check refuses an ill-formed term -/

theorem test_wellFormed_refuses_load_width_3 : (Instr.load 5 0 3).wellFormed = false := by decide
theorem test_wellFormed_refuses_store_width_0 : (Instr.store 0 1 0).wellFormed = false := by decide
theorem test_wellFormed_takes_any_register_byte : (Instr.add 255 8 200).wellFormed = true := by decide

/-! ### Decode: every constructor from its written-out bytes (30_encoding.md R95, 95_test_vectors.md P1 to P9, J1, J9) -/

theorem test_decode_halt : decode [0x00] = .ok (.halt, []) := rfl
theorem test_decode_loadi : decode [0x01, 0x03, 0x78, 0x56, 0x34, 0x12] = .ok (.loadi 3 0x12345678, []) := rfl
theorem test_decode_add : decode [0x02, 0x02, 0x00, 0x01] = .ok (.add 2 0 1, []) := rfl
theorem test_decode_sub : decode [0x03, 0x05, 0x01, 0x05] = .ok (.sub 5 1 5, []) := rfl
theorem test_decode_mul : decode [0x04, 0x05, 0x04, 0x03] = .ok (.mul 5 4 3, []) := rfl
theorem test_decode_div : decode [0x05, 0x04, 0x01, 0x03] = .ok (.div 4 1 3, []) := rfl
theorem test_decode_load : decode [0x06, 0x05, 0x00, 0x02] = .ok (.load 5 0 2, []) := rfl
theorem test_decode_store : decode [0x07, 0x06, 0x02, 0x04] = .ok (.store 6 2 4, []) := rfl
theorem test_decode_jmp : decode [0x08, 0x78, 0x56, 0x34, 0x12] = .ok (.jmp 0x12345678, []) := rfl
theorem test_decode_jz : decode [0x09, 0x01, 0x39, 0x00, 0x00, 0x00] = .ok (.jz 1 0x39, []) := rfl
theorem test_decode_jnz : decode [0x0A, 0x07, 0x00, 0x01, 0x00, 0x00] = .ok (.jnz 7 0x100, []) := rfl

/-- 30_encoding.md R89: the first and the last illegal opcode byte. -/
theorem test_decode_refuses_opcodes : decode [0x0B] = .error .illegalOpcode ∧ decode [0xFF] = .error .illegalOpcode :=
  ⟨rfl, rfl⟩
/-- Vectors S6 and S11: a legal opcode whose operands are cut short. -/
theorem test_decode_refuses_truncation :
    decode [0x0A] = .error .truncatedOperands ∧ decode [0x06, 0, 0] = .error .truncatedOperands := ⟨rfl, rfl⟩
/-- Vector S20: the width is judged, the register byte is not. -/
theorem test_decode_refuses_width : decode [0x06, 0x09, 0x00, 0x03] = .error .illegalWidth := rfl
theorem test_decode_refuses_nothing : decode [] = .error .noOpcodeByte := rfl

/-- 30_encoding.md R80: bit 0 of a table word is bit 0 of the first byte. -/
theorem test_decodeTableWord_loadi : decodeTableWord 48 0x123456780301 = some (.loadi 3 0x12345678) := by decide
theorem test_decodeTableWord_zero_width : decodeTableWord 8 0x06 = none := by decide

/-- The word is run by the very next step. -/
theorem test_withFetchWord_runs :
    (State.reset.withFetchWord 48 0x000000050001).after.readReg 0 = 5 ∧
      (State.reset.withFetchWord 48 0x000000050001).after.pc = 6 := by decide
theorem test_withFetchWord_fetches :
    fetchDecode ((at_ [1, 2] [] 1).withFetchWord 32 0x01000202) = .ok (.add 2 0 1) := rfl

/-! ### One step: two vectors at most for each instruction -/

/-- Vector H1. -/
theorem test_halt : (at_ [0x00] [] 0).after.fsr.word = 0x02 ∧ (at_ [0x00] [] 0).after.pc = 0 ∧
    stepAnswer (at_ [0x00] [] 0) = false := by decide
/-- Vector H3: a `00` byte inside an immediate is a HALT when `pc` points at it. -/
theorem test_halt_inside_an_immediate : (at_ [1, 1, 0, 0, 0, 0] [] 2).after.fsr.word = 0x02 := by decide
/-- Vector I3. -/
theorem test_loadi : (at_ [0x01, 0x03, 0x78, 0x56, 0x34, 0x12] [] 0).after.readReg 3 = 0x12345678 ∧
    (at_ [0x01, 0x03, 0x78, 0x56, 0x34, 0x12] [] 0).after.pc = 6 := by decide
/-- Vector I6. -/
theorem test_loadi_bad_register : (at_ [0x01, 0x08, 0xFF, 0xFF, 0xFF, 0xFF] [] 0).after.fsr.word = 0x0D := by decide
/-- Vector A2. -/
theorem test_add : (at_ [2, 2, 0, 1] [(0, 0xFFFFFFFF), (1, 0xFFFFFFFF)] 0).after.readReg 2 = 0xFFFFFFFE := by decide
/-- Vector A45: both sources are read before the write. -/
theorem test_add_aliased : (at_ [2, 0, 0, 0] [(0, 0x80000001)] 0).after.readReg 0 = 2 := by decide
/-- Vector A8. -/
theorem test_sub : (at_ [3, 2, 0, 1] [(0, 3), (1, 5)] 0).after.readReg 2 = 0xFFFFFFFE := by decide
/-- Vector A49: the bad index is the second source. -/
theorem test_sub_bad_register : (at_ [3, 2, 0, 0xFF] [] 0).after.fsr.word = 0x0D := by decide
/-- Vector A14. -/
theorem test_mul : (at_ [4, 2, 0, 1] [(0, 0x12345678), (1, 0x9ABCDEF0)] 0).after.readReg 2 = 0x242D2080 := by decide
/-- Vector A18: rounding is toward zero. -/
theorem test_div : (at_ [5, 2, 0, 1] [(0, 0xFFFFFFF9), (1, 2)] 0).after.readReg 2 = 0xFFFFFFFD := by decide
/-- Vector A40. -/
theorem test_div_by_zero : (at_ [5, 2, 0, 1] [(0, 7), (2, 0xAA)] 0).after.fsr.word = 0x11 ∧
    (at_ [5, 2, 0, 1] [(0, 7), (2, 0xAA)] 0).after.readReg 2 = 0xAA := by decide
/-- Vector L7: a misaligned word. -/
theorem test_load : (at16 6 1 0 4 [(0, 9)]).after.readReg 1 = 0x55843322 := by decide
/-- Vector L6: zero extension. -/
theorem test_load_half : (at16 6 1 0 2 [(0, 10)]).after.readReg 1 = 0x8433 := by decide
/-- Vector T4: width 8 writes four zero bytes above the register. -/
theorem test_store : (at16 7 0 1 8 [(0, 8), (1, 0x89ABCDEF)]).after.mem.readBytes 8 8 =
    [0xEF, 0xCD, 0xAB, 0x89, 0, 0, 0, 0] := by decide
/-- Vector T7: out of bounds, and no byte is written. -/
theorem test_store_out_of_bounds : (at16 7 0 1 4 [(0, 14), (1, 0x89ABCDEF)]).after.fsr.word = 0x05 ∧
    (at16 7 0 1 4 [(0, 14), (1, 0x89ABCDEF)]).after.mem.readBytes 14 2 = [0x77, 0x88] := by decide
/-- Vector J1. -/
theorem test_jmp : (at_ [8, 0x78, 0x56, 0x34, 0x12] [] 0).after.pc = 0x12345678 ∧
    (at_ [8, 0x78, 0x56, 0x34, 0x12] [] 0).after.after.fsr.word = 0x05 := by decide
/-- Vector J5. -/
theorem test_jz_taken : (at_ [9, 0, 0x0C, 0, 0, 0] [] 0).after.pc = 0x0C := by decide
/-- Vector J7. -/
theorem test_jz_not_taken : (at_ [9, 0, 0x0C, 0, 0, 0] [(0, 0x80000000)] 0).after.pc = 6 := by decide
/-- Vector J9. -/
theorem test_jnz_taken : (at_ [0x0A, 0, 0x12, 0, 0, 0] [(0, 4)] 0).after.pc = 0x12 := by decide
/-- Vector J10. -/
theorem test_jnz_not_taken : (at_ [0x0A, 0, 0x12, 0, 0, 0] [] 0).after.pc = 6 := by decide

/-! ### The step: fetch, decode and the order of the checks -/

/-- Vectors S2 and S3: the opcode fetch at and far beyond `L`, with no wrap. -/
theorem test_fetch_out_of_bounds : (at_ [0] [] 1).after.fsr.word = 0x05 ∧
    (at_ [0] [] 0xFFFFFFFF).after.fsr.word = 0x05 := by decide
/-- Vectors S8 and S12. -/
theorem test_fetch_before_registers : (at_ [2, 9, 0] [] 0).after.fsr.word = 0x05 ∧
    (at_ [2, 0, 0, 0, 0x0B] [] 4).after.fsr.word = 0x09 := by decide
/-- Vectors Q5 and Q7: width before registers, registers before the divisor. -/
theorem test_which_fault_wins : (at_ [6, 9, 0, 3] [] 0).after.fsr.word = 0x09 ∧
    (at_ [5, 8, 0, 1] [] 0).after.fsr.word = 0x0D := by decide
/-- Vector S16: a terminal machine keeps its cause. -/
theorem test_terminal : ((at_ [1, 0, 1, 0, 0, 0] [] 0).raise .divisionByZero).after.fsr.word = 0x11 := by decide
/-- Vector V1: the empty image, from reset. -/
theorem test_empty_image : State.reset.after.fsr.word = 0x05 ∧ stepAnswer State.reset = false := by decide
theorem test_core_reset_steps : Sys2Proof.core.step Sys2Proof.core.reset = .next (State.reset.raise .outOfBounds) := rfl

/-! ### Witnesses: each statement that has hypotheses, with a state and operands that meet them -/

theorem witness_DecodeEncodeRoundTrip : (Instr.load 255 8 8).wellFormed = true ∧ (Instr.jnz 200 0xFFFFFFFF).wellFormed = true := by
  decide
theorem witness_EncodeDecodeRoundTrip : decode [0x07, 0xFF, 0x08, 0x08, 0x0B] = .ok (.store 0xFF 0x08 0x08, [0x0B]) := rfl
theorem witness_DecodedLengthIsTheTables :
    decode (0x08 :: [5, 0, 0, 0, 0xFF]) = .ok (.jmp 5, [0xFF]) ∧
    ((0x0A : Byte).toNat, Opcode.jnz, 6) ∈ opcodeTable ∧ decode (0x0A :: [7, 0, 1, 0]) = .error .truncatedOperands :=
  ⟨rfl, by decide, rfl⟩
theorem witness_IllegalOpcodeFaults :
    (let s := at_ [2, 0, 0, 0, 0x0B] [] 4; s.running = true ∧ pcn s < len s ∧ 0x0B ≤ (I s 0).toNat) ∧
    (let s := at_ [0xFF] [] 0; s.running = true ∧ pcn s < len s ∧ 0x0B ≤ (I s 0).toNat) := by decide
theorem witness_IllegalWidthFaults :
    (let s := at_ [6, 9, 3] [] 0; s.running = true ∧ pcn s < len s ∧ I s 0 = 6 ∧ len s < pcn s + 4) ∧
    (let s := at_ [7, 8, 1, 16] [] 0
     s.running = true ∧ pcn s < len s ∧ I s 0 = 7 ∧ pcn s + 4 ≤ len s ∧ (I s 3).toNat ∉ [1, 2, 4, 8]) ∧
    (let s := at_ [6, 8, 1, 0] [] 0
     s.running = true ∧ pcn s < len s ∧ I s 0 = 6 ∧ pcn s + 4 ≤ len s ∧ (I s 3).toNat ∉ [1, 2, 4, 8]) := by decide
theorem witness_StepRunsDecodedInstruction :
    let s := at_ [0, 2, 2, 0, 1] [] 1
    s.running = true ∧ pcn s + 4 ≤ len s ∧ decode (s.mem.readBytes (pcn s) 4) = .ok (.add 2 0 1, []) :=
  ⟨rfl, by decide, rfl⟩
theorem witness_TerminalStepIsIdle :
    ((at_ [1, 0, 1, 0, 0, 0] [] 0).raise .divisionByZero).fsr.fault = true ∧
    (at_ [1, 0, 1, 0, 0, 0] [] 0).latchHalted.fsr.halted = true := by decide
theorem witness_FalseAnswerIsForever : stepAnswer (at_ [0x0B] [] 0) = false ∧ stepAnswer (at_ [0] [] 0) = false := by decide
theorem witness_AnswerIsFalseInThreeCases :
    stepAnswer ((at_ [8, 0, 0, 0, 0] [] 0).raise .outOfBounds) = false ∧ stepAnswer (at_ [0x0B] [] 0) = false ∧
    (let s := at_ [0] [] 0; s.running = true ∧ pcn s < len s ∧ I s 0 = 0 ∧ stepAnswer s = false) ∧
    stepAnswer (at_ [8, 0, 0, 0, 0] [] 0) = true := by decide
theorem witness_OpcodeFetchOutOfBounds :
    (let s := at_ [0] [] 1; s.running = true ∧ len s ≤ pcn s) ∧
    (let s := at_ [0] [] 0xFFFFFFFF; s.running = true ∧ len s ≤ pcn s) := by decide
/-- Each check of 60_exceptions.md R189 with a state in which it is the first to fail, and one in which none fails. -/
theorem witness_FirstFailingCheckDecides :
    (at_ [0x0B] [] 0).latchHalted.running = false ∧
    firstFault (at_ [0] [] 1) = some .outOfBounds ∧ firstFault (at_ [0x0B] [] 0) = some .invalidOpcode ∧
    firstFault (at_ [2, 9, 0] [] 0) = some .outOfBounds ∧ firstFault (at_ [6, 9, 0, 3] [] 0) = some .invalidOpcode ∧
    firstFault (at_ [5, 8, 0, 1] [] 0) = some .invalidRegister ∧ firstFault (at_ [7, 0, 8, 4] [] 0) = some .invalidRegister ∧
    firstFault (at_ [3, 2, 0, 0xFF] [] 0) = some .invalidRegister ∧
    firstFault (at_ [5, 2, 0, 1] [] 0) = some .divisionByZero ∧ firstFault (at16 6 1 0 4 [(0, 13)]) = some .outOfBounds ∧
    firstFault (at16 7 0 1 4 [(0, 13)]) = some .outOfBounds ∧ firstFault (at16 7 0 1 4 [(0, 12)]) = none ∧
    (at16 7 0 1 4 [(0, 12)]).running = true := by decide
/-- A faulting step of a running machine. -/
theorem witness_FaultingStepChangesOnlyFsr :
    let s := at_ [5, 2, 0, 1] [(0, 7)] 0
    s.running = true ∧ step s = .next s.after ∧ s.after.fsr.fault = true := ⟨rfl, rfl, rfl⟩
theorem witness_ExecFaultKinds :
    (let s := at_ [] [] 0
     (Instr.div 2 0 1).wellFormed = true ∧ s.running = true ∧
      exec (.div 2 0 1) s = .next (s.raise .divisionByZero) ∧ (s.raise .divisionByZero).fsr.fault = true) ∧
    (let s := at_ [] [] 0
     (Instr.store 0 1 1).wellFormed = true ∧ s.running = true ∧
      exec (.store 0 1 1) s = .next (s.raise .outOfBounds) ∧ (s.raise .outOfBounds).fsr.fault = true) ∧
    (let s := at_ [] [] 0
     (Instr.jz 8 0).wellFormed = true ∧ s.running = true ∧
      exec (.jz 8 0) s = .next (s.raise .invalidRegister) ∧ (s.raise .invalidRegister).fsr.fault = true) :=
  ⟨⟨rfl, rfl, rfl, rfl⟩, ⟨rfl, rfl, rfl, rfl⟩, ⟨rfl, rfl, rfl, rfl⟩⟩
theorem witness_BadRegisterByteFaults :
    (Instr.store 7 8 4).wellFormed = true ∧ (∃ b ∈ (Instr.store 7 8 4).regBytes, 8 ≤ b.toNat) ∧
    (Instr.div 7 0 1).wellFormed = true ∧ (∀ b ∈ (Instr.div 7 0 1).regBytes, b.toNat < 8) ∧
    (at_ [] [] 0).running = true ∧ exec (.div 7 0 1) (at_ [] [] 0) = .next ((at_ [] [] 0).raise .divisionByZero) :=
  ⟨by decide, by decide, by decide, by decide, rfl, rfl⟩
theorem witness_DivisionByZeroOnlyFromDiv :
    let s := at_ [5, 0, 0, 7] [(0, 9)] 0
    s.running = true ∧ fetchDecode s = .ok (.div (regByte 0) (regByte 0) (regByte 7)) ∧ s.readReg 7 = 0 := ⟨rfl, rfl, rfl⟩
theorem witness_MachineStates :
    (let s := at_ [8, 0, 0, 0, 0] [] 0; s.running = true ∧ step s = .next s.after ∧ s.after.fsr = s.fsr) ∧
    (let s := at_ [0] [] 0; s.running = true ∧ step s = .next s.after ∧ s.after.fsr.halted = true) ∧
    (let s := at_ [0x0B] [] 0; s.running = true ∧ step s = .next s.after ∧ s.after.fsr.fault = true) ∧
    (let s := (at_ [0] [] 0).latchHalted; s.running = false ∧ step s = .next s) ∧
    State.boot [0x00] = some (at_ [0x00] [] 0) :=
  ⟨⟨rfl, rfl, rfl⟩, ⟨rfl, rfl, rfl⟩, ⟨rfl, rfl, rfl⟩, ⟨rfl, rfl⟩, by decide⟩
theorem witness_FaultFlagIsMonotone : ((at_ [8, 0xFF, 0xFF, 0xFF, 0xFF] [] 0).afterSteps 2).fsr.fault = true := by decide
theorem witness_LegalFsrWords :
    ((at_ [1] [] 0).raise .divisionByZero).legal = true ∧ (at_ [1] [] 0).latchHalted.legal = true ∧
    (at_ [1] [] 0).legal = true := by decide
theorem witness_LegalStateIsKept :
    let s := at16 7 0 1 8 [(0, 8), (1, 0x89ABCDEF)]
    s.legal = true ∧ step s = .next s.after ∧ s.after.mem ≠ s.mem := ⟨by decide, rfl, by decide⟩
theorem witness_ResetAndBootAreLegal : State.boot [0, 7, 0] = some (at_ [0, 7, 0] [] 0) := by decide
theorem witness_ImageLengthIsConstant :
    let s := at16 7 0 1 4 [(0, 12), (1, 0x89ABCDEF)]
    step s = .next s.after ∧ s.after.mem ≠ s.mem := ⟨rfl, by decide⟩

/-- A LOAD of the last four bytes of the image, with one more byte of data at an address that does not exist. -/
def withByteBeyond (b : Byte) : State := let s := at16 6 1 0 4 [(0, 12)]; { s with mem := s.mem.write 16 b }

theorem witness_OutsideTheImageIsInvisible :
    (withByteBeyond 1).mem.wf = true ∧ (withByteBeyond 2).mem.wf = true ∧ withByteBeyond 1 ≠ withByteBeyond 2 ∧
    AgreeInside (withByteBeyond 1) (withByteBeyond 2) :=
  ⟨by decide, by decide, by decide, rfl, rfl, rfl, rfl, by decide⟩
theorem witness_AdvanceNeverWraps : fetchDecode (at_ [0, 1, 0, 5, 0, 0, 0] [] 1) = .ok (.loadi 0 5) := rfl
theorem witness_ReadsDetermineMemory :
    (Memory.ofBytes 0 [3, 0, 5]).wf = true ∧ ((Memory.ofBytes 0 [3]).write 2 5).wf = true ∧
    ∀ a, (Memory.ofBytes 0 [3, 0, 5]).read a = ((Memory.ofBytes 0 [3]).write 2 5).read a :=
  ⟨by decide, by decide, fun _ => rfl⟩
theorem witness_HaltRule :
    let s := at_ [8, 5, 0, 0, 0, 0] [] 5
    s.running = true ∧ pcn s < len s ∧ I s 0 = 0 ∧ step s = .next s.after ∧ stepAnswer s = false ∧
      s.after.fsr.fault = false := ⟨rfl, by decide, rfl, rfl, rfl, rfl⟩
/-- LOADI one byte short, with register byte 8, and complete with register 7; each at its boundary. -/
theorem witness_LoadiRule :
    (let s := at_ [1, 0, 5, 0, 0] [] 0; s.running = true ∧ pcn s < len s ∧ I s 0 = 1 ∧ len s < pcn s + 6) ∧
    (let s := at_ [1, 8, 5, 0, 0, 0] [] 0
     s.running = true ∧ pcn s < len s ∧ I s 0 = 1 ∧ pcn s + 6 ≤ len s ∧ 8 ≤ (I s 1).toNat) ∧
    (let s := at_ [1, 7, 5, 0, 0, 0] [] 0
     s.running = true ∧ pcn s < len s ∧ I s 0 = 1 ∧ pcn s + 6 ≤ len s ∧ I s 1 = regByte 7) := by decide
theorem witness_AddSubMulRule_short :
    (let s := at_ [2, 9, 0] [] 0; s.running = true ∧ pcn s < len s ∧ I s 0 = 2 ∧ len s < pcn s + 4) ∧
    (let s := at_ [3, 9, 0] [] 0; s.running = true ∧ pcn s < len s ∧ I s 0 = 3 ∧ len s < pcn s + 4) ∧
    (let s := at_ [4, 9, 0] [] 0; s.running = true ∧ pcn s < len s ∧ I s 0 = 4 ∧ len s < pcn s + 4) := by decide
theorem witness_AddSubMulRule_register :
    (let s := at_ [2, 2, 8, 1] [] 0
     s.running = true ∧ pcn s < len s ∧ I s 0 = 2 ∧ pcn s + 4 ≤ len s ∧ 8 ≤ (I s 2).toNat) ∧
    (let s := at_ [3, 2, 0, 0xFF] [] 0
     s.running = true ∧ pcn s < len s ∧ I s 0 = 3 ∧ pcn s + 4 ≤ len s ∧ 8 ≤ (I s 3).toNat) ∧
    (let s := at_ [4, 8, 0, 1] [] 0
     s.running = true ∧ pcn s < len s ∧ I s 0 = 4 ∧ pcn s + 4 ≤ len s ∧ 8 ≤ (I s 1).toNat) := by decide
theorem witness_AddSubMulRule_completes :
    (let s := at_ [2, 7, 0, 1] [] 0
     s.running = true ∧ pcn s < len s ∧ I s 0 = 2 ∧ pcn s + 4 ≤ len s ∧
      I s 1 = regByte 7 ∧ I s 2 = regByte 0 ∧ I s 3 = regByte 1) ∧
    (let s := at_ [3, 3, 3, 3] [] 0
     s.running = true ∧ pcn s < len s ∧ I s 0 = 3 ∧ pcn s + 4 ≤ len s ∧
      I s 1 = regByte 3 ∧ I s 2 = regByte 3 ∧ I s 3 = regByte 3) ∧
    (let s := at_ [4, 0, 7, 7] [] 0
     s.running = true ∧ pcn s < len s ∧ I s 0 = 4 ∧ pcn s + 4 ≤ len s ∧
      I s 1 = regByte 0 ∧ I s 2 = regByte 7 ∧ I s 3 = regByte 7) := by decide
theorem witness_DivRule :
    (let s := at_ [5, 9, 0] [] 0; s.running = true ∧ pcn s < len s ∧ I s 0 = 5 ∧ len s < pcn s + 4) ∧
    (let s := at_ [5, 8, 0, 1] [] 0
     s.running = true ∧ pcn s < len s ∧ I s 0 = 5 ∧ pcn s + 4 ≤ len s ∧ 8 ≤ (I s 1).toNat) ∧
    (let s := at_ [5, 2, 0, 1] [(0, 7)] 0
     s.running = true ∧ pcn s < len s ∧ I s 0 = 5 ∧ pcn s + 4 ≤ len s ∧
      I s 1 = regByte 2 ∧ I s 2 = regByte 0 ∧ I s 3 = regByte 1 ∧ s.readReg 1 = 0) ∧
    (let s := at_ [5, 2, 0, 1] [(0, 0x80000000), (1, 0xFFFFFFFF)] 0
     s.running = true ∧ pcn s < len s ∧ I s 0 = 5 ∧ pcn s + 4 ≤ len s ∧
      I s 1 = regByte 2 ∧ I s 2 = regByte 0 ∧ I s 3 = regByte 1 ∧ s.readReg 1 ≠ 0) := by decide
/-- The data access of `at16 6 1 0 4` ends at `L` from address 12 and one byte past it from address 13. -/
theorem witness_LoadRule :
    (let s := at_ [6, 0, 0] [] 0; s.running = true ∧ pcn s < len s ∧ I s 0 = 6 ∧ len s < pcn s + 4) ∧
    (let s := at16 6 1 0 3 []
     s.running = true ∧ pcn s < len s ∧ I s 0 = 6 ∧ pcn s + 4 ≤ len s ∧ (I s 3).toNat ∉ [1, 2, 4, 8]) ∧
    (let s := at16 6 8 0 4 []
     s.running = true ∧ pcn s < len s ∧ I s 0 = 6 ∧ pcn s + 4 ≤ len s ∧ (I s 3).toNat ∈ [1, 2, 4, 8] ∧
      8 ≤ (I s 1).toNat) ∧
    (let s := at16 6 1 0 4 [(0, 13)]
     s.running = true ∧ pcn s < len s ∧ I s 0 = 6 ∧ pcn s + 4 ≤ len s ∧ (I s 3).toNat ∈ [1, 2, 4, 8] ∧
      I s 1 = regByte 1 ∧ I s 2 = regByte 0 ∧ len s < (s.readReg 0).toNat + (I s 3).toNat) ∧
    (let s := at16 6 1 0 4 [(0, 12)]
     s.running = true ∧ pcn s < len s ∧ I s 0 = 6 ∧ pcn s + 4 ≤ len s ∧ (I s 3).toNat ∈ [1, 2, 4, 8] ∧
      I s 1 = regByte 1 ∧ I s 2 = regByte 0 ∧ (s.readReg 0).toNat + (I s 3).toNat ≤ len s) := by decide
theorem witness_StoreRule :
    (let s := at_ [7, 0, 0] [] 0; s.running = true ∧ pcn s < len s ∧ I s 0 = 7 ∧ len s < pcn s + 4) ∧
    (let s := at16 7 0 1 5 []
     s.running = true ∧ pcn s < len s ∧ I s 0 = 7 ∧ pcn s + 4 ≤ len s ∧ (I s 3).toNat ∉ [1, 2, 4, 8]) ∧
    (let s := at16 7 0 8 4 []
     s.running = true ∧ pcn s < len s ∧ I s 0 = 7 ∧ pcn s + 4 ≤ len s ∧ (I s 3).toNat ∈ [1, 2, 4, 8] ∧
      8 ≤ (I s 2).toNat) ∧
    (let s := at16 7 0 1 8 [(0, 9)]
     s.running = true ∧ pcn s < len s ∧ I s 0 = 7 ∧ pcn s + 4 ≤ len s ∧ (I s 3).toNat ∈ [1, 2, 4, 8] ∧
      I s 1 = regByte 0 ∧ I s 2 = regByte 1 ∧ len s < (effectiveAddress 0 s).toNat + (I s 3).toNat) ∧
    (let s := at16 7 0 1 8 [(0, 8)]
     s.running = true ∧ pcn s < len s ∧ I s 0 = 7 ∧ pcn s + 4 ≤ len s ∧ (I s 3).toNat ∈ [1, 2, 4, 8] ∧
      I s 1 = regByte 0 ∧ I s 2 = regByte 1 ∧ (effectiveAddress 0 s).toNat + (I s 3).toNat ≤ len s ∧ s.mem.wf = true) := by
  decide
theorem witness_JmpRule :
    (let s := at_ [8, 0, 0, 0] [] 0; s.running = true ∧ pcn s < len s ∧ I s 0 = 8 ∧ len s < pcn s + 5) ∧
    (let s := at_ [8, 5, 0, 0, 0] [] 0
     s.running = true ∧ pcn s < len s ∧ I s 0 = 8 ∧ pcn s + 5 ≤ len s ∧ len s ≤ (field32 s 1).toNat) ∧
    (let s := at_ [8, 0, 0, 0, 0] [] 0
     s.running = true ∧ pcn s < len s ∧ I s 0 = 8 ∧ pcn s + 5 ≤ len s ∧ field32 s 1 = s.pc) := by decide
theorem witness_JzRule :
    (let s := at_ [9, 0, 0, 0, 0] [] 0; s.running = true ∧ pcn s < len s ∧ I s 0 = 9 ∧ len s < pcn s + 6) ∧
    (let s := at_ [9, 8, 0, 0, 0, 0] [] 0
     s.running = true ∧ pcn s < len s ∧ I s 0 = 9 ∧ pcn s + 6 ≤ len s ∧ 8 ≤ (I s 1).toNat) ∧
    (let s := at_ [9, 0, 0x06, 0, 0, 0] [] 0
     s.running = true ∧ pcn s < len s ∧ I s 0 = 9 ∧ pcn s + 6 ≤ len s ∧ I s 1 = regByte 0 ∧ s.readReg 0 = 0 ∧
      len s ≤ (field32 s 2).toNat) ∧
    (let s := at_ [9, 7, 0, 0, 0, 0] [(7, 0x80000000)] 0
     s.running = true ∧ pcn s < len s ∧ I s 0 = 9 ∧ pcn s + 6 ≤ len s ∧ I s 1 = regByte 7 ∧ ¬ s.readReg 7 = 0) := by decide
theorem witness_JnzRule :
    (let s := at_ [0x0A] [] 0; s.running = true ∧ pcn s < len s ∧ I s 0 = 0x0A ∧ len s < pcn s + 6) ∧
    (let s := at_ [0x0A, 0xC8, 0, 1, 0, 0] [] 0
     s.running = true ∧ pcn s < len s ∧ I s 0 = 0x0A ∧ pcn s + 6 ≤ len s ∧ 8 ≤ (I s 1).toNat) ∧
    (let s := at_ [0x0A, 7, 0, 1, 0, 0] [(7, 0xFFFFFFFF)] 0
     s.running = true ∧ pcn s < len s ∧ I s 0 = 0x0A ∧ pcn s + 6 ≤ len s ∧ I s 1 = regByte 7 ∧ s.readReg 7 ≠ 0 ∧
      len s ≤ (field32 s 2).toNat) ∧
    (let s := at_ [0x0A, 0, 0, 0, 0, 0] [] 0
     s.running = true ∧ pcn s < len s ∧ I s 0 = 0x0A ∧ pcn s + 6 ≤ len s ∧ I s 1 = regByte 0 ∧ ¬ s.readReg 0 ≠ 0) := by decide
/-- A state for each row of the division table: `B / C` for the two values. -/
theorem witness_DivisionTable :
    (let s := at_ [] [(0, 7)] 0; (s.readReg 0).toInt = 7 ∧ (s.readReg 1).toInt = 0) ∧
    (let s := at_ [] [(0, 0x80000000), (1, 0xFFFFFFFF)] 0; (s.readReg 0).toInt = -2 ^ 31 ∧ (s.readReg 1).toInt = -1) ∧
    (let s := at_ [] [(0, 0), (1, 1)] 0; (s.readReg 0).toInt = 0 ∧ (s.readReg 1).toInt = 1) ∧
    (let s := at_ [] [(0, 0xFFFFFFFF), (1, 2)] 0; (s.readReg 0).toInt = -1 ∧ (s.readReg 1).toInt = 2) ∧
    (let s := at_ [] [(0, 2), (1, 0x80000000)] 0; (s.readReg 0).toInt = 2 ∧ (s.readReg 1).toInt = -2 ^ 31) ∧
    (let s := at_ [] [(0, 0xFFFFFFF9), (1, 0xFFFFFFFE)] 0; (s.readReg 0).toInt = -7 ∧ (s.readReg 1).toInt = -2) := by decide
theorem witness_LoadCompletes :
    let s := at16 6 1 0 8 [(0, 8)]; 8 ∈ [1, 2, 4, 8] ∧ (effectiveAddress 0 s).toNat + 8 ≤ len s := by decide
theorem witness_StoreCompletes :
    let s := at16 7 0 1 8 [(0, 8)]
    8 ∈ [1, 2, 4, 8] ∧ s.mem.wf = true ∧ (effectiveAddress 0 s).toNat + 8 ≤ len s := by decide
theorem witness_DataAccessOutOfBoundsTraps :
    (let s := at16 6 1 0 8 [(0, 9)]; 8 ∈ [1, 2, 4, 8] ∧ len s < (effectiveAddress 0 s).toNat + 8) ∧
    (let s := at16 7 0 1 1 [(0, 16)]; 1 ∈ [1, 2, 4, 8] ∧ len s < (effectiveAddress 0 s).toNat + 1) ∧
    (at16 6 1 0 4 [(0, 0xFFFFFFFF)]).readReg 0 = 0xFFFFFFFF := by decide
/-- A STORE over its own last byte and the three after it: the byte changes, and nothing below it. -/
theorem witness_OnlyStoreWritesMemory :
    let s := at16 7 0 1 4 [(0, 3), (1, 0x89ABCDEF)]
    step s = .next s.after ∧ s.after.mem.read 3 ≠ s.mem.read 3 := ⟨rfl, by decide⟩
theorem witness_OnlyTheDestinationRegister :
    let s := at_ [3, 7, 0, 1] [(1, 1)] 0
    step s = .next s.after ∧ s.after.readReg 7 ≠ s.readReg 7 := ⟨rfl, by decide⟩
theorem witness_PcAfterStep_stays :
    (let s := (at_ [0] [] 0).latchHalted; step s = .next s.after ∧ s.running = false) ∧
    (let s := at_ [0x0B] [] 0; step s = .next s.after ∧ s.running = true ∧ s.after.fsr.fault = true) ∧
    (let s := at_ [0] [] 0
     step s = .next s.after ∧ s.running = true ∧ s.after.fsr.fault = false ∧ I s 0 = 0) :=
  ⟨⟨rfl, rfl⟩, ⟨rfl, rfl, rfl⟩, ⟨rfl, rfl, rfl, rfl⟩⟩
theorem witness_PcAfterStep_moves :
    (let s := at_ [1, 7, 5, 0, 0, 0] [] 0
     step s = .next s.after ∧ s.running = true ∧ s.after.fsr.fault = false ∧ I s 0 = 1) ∧
    (let s := at_ [4, 7, 0, 1] [] 0
     step s = .next s.after ∧ s.running = true ∧ s.after.fsr.fault = false ∧ I s 0 = 4) ∧
    (let s := at_ [8, 5, 0, 0, 0] [] 0
     step s = .next s.after ∧ s.running = true ∧ s.after.fsr.fault = false ∧ I s 0 = 8) :=
  ⟨⟨rfl, rfl, rfl, rfl⟩, ⟨rfl, rfl, rfl, rfl⟩, ⟨rfl, rfl, rfl, rfl⟩⟩
theorem witness_PcAfterStep_branches :
    (let s := at_ [9, 7, 5, 0, 0, 0] [] 0
     step s = .next s.after ∧ s.running = true ∧ s.after.fsr.fault = false ∧ I s 0 = 9 ∧ I s 1 = regByte 7 ∧
      s.readReg 7 = 0) ∧
    (let s := at_ [9, 0, 5, 0, 0, 0] [(0, 1)] 0
     step s = .next s.after ∧ s.running = true ∧ s.after.fsr.fault = false ∧ I s 0 = 9 ∧ I s 1 = regByte 0 ∧
      s.readReg 0 ≠ 0) ∧
    (let s := at_ [0x0A, 0, 5, 0, 0, 0] [(0, 1)] 0
     step s = .next s.after ∧ s.running = true ∧ s.after.fsr.fault = false ∧ I s 0 = 0x0A ∧ I s 1 = regByte 0 ∧
      s.readReg 0 ≠ 0) ∧
    (let s := at_ [0x0A, 7, 5, 0, 0, 0] [] 0
     step s = .next s.after ∧ s.running = true ∧ s.after.fsr.fault = false ∧ I s 0 = 0x0A ∧ I s 1 = regByte 7 ∧
      s.readReg 7 = 0) :=
  ⟨⟨rfl, rfl, rfl, rfl, rfl, rfl⟩, ⟨rfl, rfl, rfl, rfl, rfl, by decide⟩, ⟨rfl, rfl, rfl, rfl, rfl, by decide⟩,
    ⟨rfl, rfl, rfl, rfl, rfl, rfl⟩⟩
theorem witness_StoreThenLoad :
    let s := at16 7 0 1 1 [(0, 15), (1, 0x7F)]
    1 ∈ [1, 2, 4, 8] ∧ s.mem.wf = true ∧ (effectiveAddress 0 s).toNat + 1 ≤ len s ∧ (s.readReg 1).toNat < 2 ^ (8 * 1) := by
  decide
theorem witness_MemReadRule :
    (let s := at16 0 0 0 0 []; 8 ∈ [1, 2, 4, 8] ∧ (8 : Word).toNat + 8 ≤ len s) ∧
    (let s := at16 0 0 0 0 []; 4 ∈ [1, 2, 4, 8] ∧ len s < (13 : Word).toNat + 4) := by decide
theorem witness_MemWriteRule :
    (let s := at16 0 0 0 0 []; 8 ∈ [1, 2, 4, 8] ∧ s.mem.wf = true ∧ (8 : Word).toNat + 8 ≤ len s) ∧
    (let s := at16 0 0 0 0 []; 1 ∈ [1, 2, 4, 8] ∧ s.mem.wf = true ∧ len s < (0xFFFFFFFF : Word).toNat + 1) := by decide
theorem witness_MixedWidthReads :
    let s := at16 0 0 0 0 []
    8 ∈ [1, 2, 4, 8] ∧ 2 ∈ [1, 2, 4, 8] ∧ s.mem.wf = true ∧ (8 : Word).toNat + 8 ≤ len s ∧
      (8 : Word).toNat ≤ (14 : Word).toNat ∧ (14 : Word).toNat + 2 ≤ (8 : Word).toNat + 8 ∧
      s.memWrite 8 8 0x1122334455667788 = .ok (s.storeBytes 8 (leBytes 8 0x1122334455667788)) :=
  ⟨by decide, by decide, by decide, by decide, by decide, by decide, rfl⟩
/-- The STORE of 95_test_vectors.md P5, with a byte 0 and with the byte 0x0B. -/
theorem witness_NextFetchSeesStore :
    (let s := at_ [7, 0, 1, 1, 8] [(0, 4), (1, 0x100)] 0
     s.running = true ∧ s.mem.wf = true ∧ pcn s + 5 ≤ len s ∧ I s 0 = 7 ∧ I s 1 = regByte 0 ∧ I s 2 = regByte 1 ∧
      I s 3 = 1 ∧ (effectiveAddress 0 s).toNat = pcn s + 4 ∧ (s.readReg 1).toNat % 256 = 0) ∧
    (let s := at_ [7, 0, 1, 1, 8] [(0, 4), (1, 0x0B)] 0
     s.running = true ∧ s.mem.wf = true ∧ pcn s + 5 ≤ len s ∧ I s 0 = 7 ∧ I s 1 = regByte 0 ∧ I s 2 = regByte 1 ∧
      I s 3 = 1 ∧ (effectiveAddress 0 s).toNat = pcn s + 4 ∧ 0x0B ≤ (s.readReg 1).toNat % 256) := by decide
theorem witness_JumpOutOfTheImage :
    (let s := at_ [8, 5, 0, 0, 0] [] 0
     s.running = true ∧ fetchDecode s = .ok (.jmp 5) ∧ len s ≤ (5 : Word).toNat) ∧
    (let s := at_ [9, 7, 6, 0, 0, 0] [] 0
     s.running = true ∧ fetchDecode s = .ok (.jz (regByte 7) 6) ∧ len s ≤ (6 : Word).toNat ∧ s.readReg 7 = 0) ∧
    (let s := at_ [0x0A, 7, 0xFF, 0xFF, 0xFF, 0xFF] [(7, 1)] 0
     s.running = true ∧ fetchDecode s = .ok (.jnz (regByte 7) 0xFFFFFFFF) ∧ len s ≤ (0xFFFFFFFF : Word).toNat ∧
      s.readReg 7 ≠ 0) :=
  ⟨⟨rfl, rfl, by decide⟩, ⟨rfl, rfl, by decide, rfl⟩, ⟨rfl, rfl, by decide, by decide⟩⟩
theorem witness_BootState :
    ([] : List Byte).length ≤ 2 ^ 32 - 1 ∧ ([0x08, 5, 0, 0, 0] : List Byte).length ≤ 2 ^ 32 - 1 ∧
    (at_ [0x08, 5, 0, 0, 0] [] 0).observeByte 4 = some 0 ∧ (at_ [0x08, 5, 0, 0, 0] [] 0).observeByte 5 = none := by decide
theorem witness_LoadPlacesTheImage :
    ([1, 0, 3] : List Byte).length ≤ 2 ^ 32 - 1 ∧ ((at_ [9] [(2, 5)] 7).load [1, 0, 3]).isSome = true := by decide

end Sys2Proof.Tests
end

section
/-! PROOFS of the statements about the state (10_state.md), and the laws they need. -/

namespace Sys2Proof

/-! ### What the decoder reads is the encoding of what it answers (30_encoding.md R83, R90) -/

/-- Four bytes are the little-endian bytes of the word they hold. -/
theorem leBytes_u32_leValue (b0 b1 b2 b3 : Byte) :
    leBytes 4 (u32 (leValue [b0, b1, b2, b3])).toNat = [b0, b1, b2, b3] := by
  have hlt : leValue [b0, b1, b2, b3] < 2 ^ 32 := by simpa using leValue_lt [b0, b1, b2, b3]
  rw [u32_natCast, BitVec.toNat_ofNat, Nat.mod_eq_of_lt hlt]
  exact leBytes_leValue [b0, b1, b2, b3]

theorem decodeRegWord_ok {mk : Byte → Word → Instr} {bs rest : List Byte} {i : Instr}
    (h : decodeRegWord mk bs = .ok (i, rest)) : ∃ reg w, i = mk reg w ∧ bs = reg :: leBytes 4 w.toNat ++ rest := by
  unfold decodeRegWord at h
  split at h
  · cases h; exact ⟨_, _, rfl, by simp only [leBytes_u32_leValue]; rfl⟩
  · cases h

theorem decodeWord_ok {mk : Word → Instr} {bs rest : List Byte} {i : Instr}
    (h : decodeWord mk bs = .ok (i, rest)) : ∃ w, i = mk w ∧ bs = leBytes 4 w.toNat ++ rest := by
  unfold decodeWord at h
  split at h
  · cases h; exact ⟨_, rfl, by simp only [leBytes_u32_leValue]; rfl⟩
  · cases h

theorem decodeRegs_ok {mk : Byte → Byte → Byte → Instr} {bs rest : List Byte} {i : Instr}
    (h : decodeRegs mk bs = .ok (i, rest)) : ∃ a b c, i = mk a b c ∧ bs = [a, b, c] ++ rest := by
  unfold decodeRegs at h
  split at h
  · cases h; exact ⟨_, _, _, rfl, rfl⟩
  · cases h

theorem decodeRegsWidth_ok {mk : Byte → Byte → Byte → Instr} {bs rest : List Byte} {i : Instr}
    (h : decodeRegsWidth mk bs = .ok (i, rest)) :
    ∃ a b w, i = mk a b w ∧ (accessWidth? w).isSome = true ∧ bs = [a, b, w] ++ rest := by
  unfold decodeRegsWidth at h
  split at h
  · split at h
    · next hw => cases h; exact ⟨_, _, _, rfl, hw, rfl⟩
    · cases h
  · cases h

theorem decodeOperands_ok {op : Opcode} {bs rest : List Byte} {i : Instr} (h : decodeOperands op bs = .ok (i, rest)) :
    i.wellFormed = true ∧ i.opcode = op ∧ bs = i.operandBytes ++ rest := by
  cases op with
  | halt => cases h; exact ⟨rfl, rfl, rfl⟩
  | loadi => obtain ⟨_, _, rfl, rfl⟩ := decodeRegWord_ok h; exact ⟨rfl, rfl, rfl⟩
  | add => obtain ⟨_, _, _, rfl, rfl⟩ := decodeRegs_ok h; exact ⟨rfl, rfl, rfl⟩
  | sub => obtain ⟨_, _, _, rfl, rfl⟩ := decodeRegs_ok h; exact ⟨rfl, rfl, rfl⟩
  | mul => obtain ⟨_, _, _, rfl, rfl⟩ := decodeRegs_ok h; exact ⟨rfl, rfl, rfl⟩
  | div => obtain ⟨_, _, _, rfl, rfl⟩ := decodeRegs_ok h; exact ⟨rfl, rfl, rfl⟩
  | load => obtain ⟨_, _, _, rfl, hw, rfl⟩ := decodeRegsWidth_ok h; exact ⟨hw, rfl, rfl⟩
  | store => obtain ⟨_, _, _, rfl, hw, rfl⟩ := decodeRegsWidth_ok h; exact ⟨hw, rfl, rfl⟩
  | jmp => obtain ⟨_, rfl, rfl⟩ := decodeWord_ok h; exact ⟨rfl, rfl, rfl⟩
  | jz => obtain ⟨_, _, rfl, rfl⟩ := decodeRegWord_ok h; exact ⟨rfl, rfl, rfl⟩
  | jnz => obtain ⟨_, _, rfl, rfl⟩ := decodeRegWord_ok h; exact ⟨rfl, rfl, rfl⟩

theorem decode_ok {bs rest : List Byte} {i : Instr} (h : decode bs = .ok (i, rest)) :
    i.wellFormed = true ∧ bs = encode i ++ rest := by
  unfold decode at h
  split at h
  · cases h
  · split at h
    · cases h
    · next hop =>
      obtain ⟨hwf, rfl, rfl⟩ := decodeOperands_ok h
      exact ⟨hwf, by rw [Opcode.byte_of_ofByte? hop]; rfl⟩

theorem encodedForm (i : Instr) : Laws.EncodedForm.Statement i := by
  cases i with
  | halt => exact Laws.EncodedForm.halt
  | loadi reg imm => exact Laws.EncodedForm.loadi reg imm
  | add a b c => exact Laws.EncodedForm.add a b c
  | sub a b c => exact Laws.EncodedForm.sub a b c
  | mul a b c => exact Laws.EncodedForm.mul a b c
  | div a b c => exact Laws.EncodedForm.div a b c
  | load r ra w => exact Laws.EncodedForm.load r ra w
  | store ra r w => exact Laws.EncodedForm.store ra r w
  | jmp target => exact Laws.EncodedForm.jmp target
  | jz reg target => exact Laws.EncodedForm.jz reg target
  | jnz reg target => exact Laws.EncodedForm.jnz reg target

theorem encode_length (i : Instr) : (encode i).length = i.length := (encodedForm i).1

/-- The first register byte of an instruction is the byte after the opcode byte. -/
theorem encode_getElem?_one {i : Instr} {b : Byte} (h : i.regBytes.head? = some b) : (encode i)[1]? = some b := by
  cases i with
  | halt => cases h
  | jmp target => cases h
  | _ => exact h

/-! ### The instruction of an opcode -/

theorem Instr.eq_halt_of_opcode {i : Instr} (h : i.opcode = .halt) : i = .halt := by
  cases i with
  | halt => rfl
  | _ => cases h

theorem Instr.eq_jmp_of_opcode {i : Instr} (h : i.opcode = .jmp) : ∃ target, i = .jmp target := by
  cases i with
  | jmp target => exact ⟨target, rfl⟩
  | _ => cases h

theorem Instr.eq_jz_of_opcode {i : Instr} (h : i.opcode = .jz) : ∃ reg target, i = .jz reg target := by
  cases i with
  | jz reg target => exact ⟨reg, target, rfl⟩
  | _ => cases h

theorem Instr.eq_jnz_of_opcode {i : Instr} (h : i.opcode = .jnz) : ∃ reg target, i = .jnz reg target := by
  cases i with
  | jnz reg target => exact ⟨reg, target, rfl⟩
  | _ => cases h

namespace Machine

open Spec

/-! ### The bytes at `pc` of a fetched instruction (40_step_dispatch_halt.md R113) -/

/-- Bytes that begin with the encoding of an instruction begin with the byte of its opcode. -/
theorem opcode_of_readBytes {m : Memory} {a : Nat} {op : Opcode} {i : Instr} {rest : List Byte}
    (hop : Opcode.ofByte? (m.read a) = some op) (hbytes : m.readBytes a op.length = encode i ++ rest) : op = i.opcode := by
  obtain ⟨n, hn⟩ := Nat.exists_eq_add_of_le' op.length_pos
  have hhead := congrArg List.head? hbytes
  rw [hn, Memory.readBytes, encode, List.cons_append, List.head?_cons, List.head?_cons, Option.some_inj] at hhead
  rw [hhead, Opcode.ofByte?_byte, Option.some_inj] at hop
  exact hop.symm

/-- A fetched instruction lies inside the image, its bytes at `pc` are its encoding, and it is well-formed. -/
theorem fetchDecode_ok {s : State} {i : Instr} (h : fetchDecode s = .ok i) :
    s.pc.toNat + i.length ≤ s.imageLen.toNat ∧ s.mem.readBytes s.pc.toNat i.length = encode i ∧ i.wellFormed = true := by
  have hin : s.pc.toNat < s.imageLen.toNat := by
    by_contra hout
    rw [fetchDecode_of_oob (not_lt.mp hout)] at h
    cases h
  cases hop : Opcode.ofByte? (s.mem.read s.pc.toNat) with
  | none => rw [fetchDecode_of_illegal hin hop] at h; cases h
  | some op =>
    rcases Nat.lt_or_ge s.imageLen.toNat (s.pc.toNat + op.length) with hshort | hfit
    · rw [fetchDecode_of_short hin hop hshort] at h; cases h
    · rw [fetchDecode_of_fits hop hfit] at h
      split at h
      · cases h
      · next rest hdec =>
        cases h
        obtain ⟨hwf, hbytes⟩ := decode_ok hdec
        obtain rfl := opcode_of_readBytes hop hbytes
        have hrest := congrArg List.length hbytes
        rw [Memory.readBytes_length, List.length_append, encode_length] at hrest
        rw [List.length_eq_zero_iff.mp (Nat.left_eq_add.mp hrest), List.append_nil] at hbytes
        exact ⟨hfit, hbytes, hwf⟩

/-- Byte `k` at `pc` is byte `k` of the encoding of the instruction fetched there. -/
theorem I_of_fetchDecode {s : State} {i : Instr} (h : fetchDecode s = .ok i) {k : Nat} {b : Byte}
    (hk : (encode i)[k]? = some b) : I s k = b := by
  obtain ⟨-, hbytes, -⟩ := fetchDecode_ok h
  rw [← hbytes] at hk
  obtain ⟨hlt, hget⟩ := List.getElem?_eq_some_iff.mp hk
  rw [← hget, Memory.getElem_readBytes]

theorem I_zero_of_fetchDecode {s : State} {i : Instr} (h : fetchDecode s = .ok i) : I s 0 = i.opcode.byte :=
  I_of_fetchDecode h rfl

/-- The byte at `pc` names the opcode of the instruction fetched there. -/
theorem opcode_of_fetchDecode {s : State} {i : Instr} (h : fetchDecode s = .ok i) (op : Opcode)
    (h0 : I s 0 = op.byte) : i.opcode = op := by
  have hbyte := congrArg Opcode.ofByte? ((I_zero_of_fetchDecode h).symm.trans h0)
  simpa only [Opcode.ofByte?_byte, Option.some_inj] using hbyte

/-- The first register byte of the instruction fetched at `pc` stands right after the opcode byte. -/
theorem I_one_of_fetchDecode {s : State} {i : Instr} (h : fetchDecode s = .ok i) {b : Byte}
    (hb : i.regBytes.head? = some b) : I s 1 = b :=
  I_of_fetchDecode h (encode_getElem?_one hb)

/-- A field of four bytes that are the little-endian bytes of a word holds that word. -/
theorem field32_eq {s : State} {k : Nat} {w : Word} (h : ∀ j b, (leBytes 4 w.toNat)[j]? = some b → I s (k + j) = b) :
    field32 s k = w := by
  have hbytes : [I s k, I s (k + 1), I s (k + 2), I s (k + 3)] = leBytes 4 w.toNat := by
    rw [h 1 _ rfl, h 2 _ rfl, h 3 _ rfl, show I s k = _ from h 0 _ rfl]; rfl
  have hsum := leValue_leBytes 4 w.toNat
  rw [← hbytes, Nat.mod_eq_of_lt (show w.toNat < 256 ^ 4 from w.isLt)] at hsum
  apply BitVec.eq_of_toNat_eq
  rw [← hsum, field32, BitVec.toNat_ofNat]
  simp only [leValue]
  omega

/-! ### Register operands -/

theorem regByte_toNat (r : Fin 8) : (regByte r).toNat = r.val := by
  simp only [regByte, BitVec.toNat_ofNat]
  omega

theorem withReg_regByte (r : Fin 8) (s : State) (go : Fin Config.nreg → Result) : withReg (regByte r) s go = go r := by
  have hr : (regByte r).toNat < Config.nreg := by rw [regByte_toNat]; exact r.isLt
  rw [withReg_of_lt hr]
  exact congrArg go (Fin.ext (regByte_toNat r))

/-! ### The sequential advance (10_state.md R26) -/

/-- After a fetch the sequential advance does not wrap. -/
theorem advance_pc_toNat_of_fetchDecode {s : State} {i : Instr} (h : fetchDecode s = .ok i) :
    (s.advance i.length).pc.toNat = s.pc.toNat + i.length := by
  obtain ⟨hfit, -, -⟩ := fetchDecode_ok h
  have hlt := s.imageLen.isLt
  rw [State.advance_pc, ← Nat.cast_add, u32_natCast, BitVec.toNat_ofNat, Nat.mod_eq_of_lt (by omega)]

/-! ### Taking a fault, and what a step can do to FSR (10_state.md R28 to R33) -/

theorem faults_raise (k : FaultKind) (s : State) : Faults k s (s.raise k) :=
  ⟨rfl, rfl, rfl, fun _ => rfl, rfl, fun _ => rfl, rfl⟩

theorem raise_running (k : FaultKind) (s : State) : (s.raise k).running = false := rfl

theorem stepFaults_of_step {k : FaultKind} {s : State} (h : step s = .next (s.raise k)) : StepFaults k s :=
  ⟨⟨_, h, faults_raise k s⟩, by rw [stepAnswer_of_next h, raise_running]⟩

/-- A fault of the fetch or the decode is the fault of the step. -/
theorem stepFaults_of_fetchDecode {k : FaultKind} {s : State} (hr : s.running = true)
    (h : fetchDecode s = .error k) : StepFaults k s :=
  stepFaults_of_step (by rw [step_of_running hr, h])

theorem Wrote.fsr {i : Instr} {s t : State} (h : Wrote i s t) : t.fsr = s.fsr ∨ ∃ k, t = s.raise k := by
  cases h with
  | raised k => exact .inr ⟨k, rfl⟩
  | register => exact .inl rfl
  | memory => exact .inl rfl
  | jumped => exact .inl rfl
  | advanced => exact .inl rfl

/-- What a step of a running machine can do to FSR: nothing, what HALT does, or taking a fault. -/
theorem step_fsr {s t : State} (hr : s.running = true) (h : step s = .next t) :
    t.fsr = s.fsr ∨ (fetchDecode s = .ok .halt ∧ t = s.latchHalted) ∨ ∃ k, t = s.raise k := by
  rcases step_wrote h with ⟨hstop, -⟩ | ⟨-, ⟨k, -, rfl⟩ | ⟨hi, rfl⟩ | ⟨i, -, hw⟩⟩
  · rw [hr] at hstop; cases hstop
  · exact .inr (.inr ⟨k, rfl⟩)
  · exact .inr (.inl ⟨hi, rfl⟩)
  · exact hw.fsr.imp_right .inr

/-! ### The layout of FSR (10_state.md R28) -/

theorem FaultKind.code_lt (k : FaultKind) : k.code < 8 := by cases k <;> decide

theorem FSR.causeCode_lt (f : FSR) : f.causeCode < 8 := by
  unfold FSR.causeCode
  split
  · decide
  · next k _ => exact k.code_lt

/-- Two bits and a 3-bit code, packed as `FSR.word` packs them, come back out. -/
theorem packed_fields : ∀ (fault halted : Bool) (code : Fin 8),
    let w := BitVec.ofNat 32 (fault.toNat + 2 * halted.toNat + 4 * code.val)
    w.getLsbD 0 = fault ∧ w.getLsbD 1 = halted ∧ w.extractLsb' 2 3 = BitVec.ofNat 3 code.val ∧ w.extractLsb' 5 27 = 0 := by
  decide

/-! ### The one register and the pc a step writes (10_state.md R23, R25) -/

/-- An instruction that changes a register takes no fault, is one of the six that have a destination, and its first
register byte names that register. -/
theorem Wrote.register_of_ne {i : Instr} {s t : State} (h : Wrote i s t) {r : Fin Config.nreg}
    (hne : t.readReg r ≠ s.readReg r) :
    i.opcode ∈ [.loadi, .add, .sub, .mul, .div, .load] ∧ i.regBytes.head? = some (regByte r) ∧ t.fsr = s.fsr := by
  cases h with
  | register d v hd hop =>
    by_cases hrd : r = d
    · exact ⟨hop, by rw [hrd]; exact hd, rfl⟩
    · exact absurd (by rw [State.readReg_advance, State.readReg_writeReg, if_neg hrd]) hne
  | raised => exact absurd rfl hne
  | memory => exact absurd rfl hne
  | jumped => exact absurd rfl hne
  | advanced => exact absurd rfl hne

/-- A step of a running machine that takes no fault runs the instruction it fetched. -/
theorem step_runs {s t : State} (hr : s.running = true) (hf : t.fsr.fault = false) (h : step s = .next t) :
    ∃ i, fetchDecode s = .ok i ∧ exec i s = .next t := by
  rw [step_of_running hr] at h
  split at h
  · cases h; cases hf
  · next i hi => exact ⟨i, hi, h⟩

/-- The opcodes whose instructions, when they complete, always move `pc` by the sequential advance. -/
def sequentialOpcodes : List Opcode := [.loadi, .add, .sub, .mul, .div, .load, .store]

theorem Wrote.sequential_pc {i : Instr} {s t : State} (h : Wrote i s t) (hf : t.fsr.fault = false)
    (hop : i.opcode ∈ sequentialOpcodes) : t.pc = (s.advance i.length).pc := by
  have hdisjoint : ∀ op ∈ [Opcode.jmp, .jz, .jnz], op ∉ sequentialOpcodes := by decide
  cases h with
  | raised => cases hf
  | register => rfl
  | memory => rfl
  | jumped target hjump => exact absurd hop (hdisjoint _ hjump)
  | advanced => rfl

theorem step_sequential_pc {s t : State} (hr : s.running = true) (hf : t.fsr.fault = false) (h : step s = .next t)
    (op : Opcode) (hop : op ∈ sequentialOpcodes) (h0 : I s 0 = op.byte) : t.pc.toNat = pcn s + op.length := by
  obtain ⟨i, hi, hx⟩ := step_runs hr hf h
  obtain rfl := opcode_of_fetchDecode hi op h0
  rcases exec_wrote hx with ⟨rfl, -⟩ | hw
  · exact absurd hop (by decide)
  · rw [hw.sequential_pc hf hop, advance_pc_toNat_of_fetchDecode hi]; rfl

theorem field32_one_of_fetchDecode {s : State} {target : Word} (h : fetchDecode s = .ok (.jmp target)) :
    field32 s 1 = target :=
  field32_eq fun j b hb => I_of_fetchDecode h (by rw [Nat.add_comm]; exact hb)

/-- The word field of the formats RI and RT. -/
theorem field32_two_of_fetchDecode {s : State} {i : Instr} {reg : Byte} {w : Word} (h : fetchDecode s = .ok i)
    (hi : i.operandBytes = reg :: leBytes 4 w.toNat) : field32 s 2 = w :=
  field32_eq fun j b hb => I_of_fetchDecode h (by rw [encode, hi, Nat.add_comm]; exact hb)

/-- The pc after a conditional jump of six bytes that is taken on `p`. -/
theorem branch_pc {s t : State} {i : Instr} {reg : Byte} {target : Word} {p : Prop} [Decidable p]
    (hi : fetchDecode s = .ok i) (hlen : i.length = 6) (hbytes : i.operandBytes = reg :: leBytes 4 target.toNat)
    (hx : (if p then .next (s.jump target) else .next (s.advance 6) : Result) = .next t) :
    (p → t.pc = field32 s 2) ∧ (¬ p → t.pc.toNat = pcn s + 6) := by
  refine ⟨fun hp => ?_, fun hp => ?_⟩
  · rw [if_pos hp] at hx
    cases hx
    exact (field32_two_of_fetchDecode hi hbytes).symm
  · rw [if_neg hp] at hx
    cases hx
    rw [← hlen, advance_pc_toNat_of_fetchDecode hi]

theorem step_halt_pc {s t : State} (hr : s.running = true) (hf : t.fsr.fault = false) (h : step s = .next t)
    (h0 : I s 0 = 0x00) : t.pc = s.pc := by
  obtain ⟨i, hi, hx⟩ := step_runs hr hf h
  obtain rfl := Instr.eq_halt_of_opcode (opcode_of_fetchDecode hi .halt h0)
  cases hx
  rfl

theorem step_jmp_pc {s t : State} (hr : s.running = true) (hf : t.fsr.fault = false) (h : step s = .next t)
    (h0 : I s 0 = 0x08) : t.pc = field32 s 1 := by
  obtain ⟨i, hi, hx⟩ := step_runs hr hf h
  obtain ⟨target, rfl⟩ := Instr.eq_jmp_of_opcode (opcode_of_fetchDecode hi .jmp h0)
  cases hx
  exact (field32_one_of_fetchDecode hi).symm

theorem step_jz_pc {s t : State} (hr : s.running = true) (hf : t.fsr.fault = false) (h : step s = .next t)
    (h0 : I s 0 = 0x09) {r : Fin 8} (h1 : I s 1 = regByte r) :
    (s.readReg r = 0 → t.pc = field32 s 2) ∧ (s.readReg r ≠ 0 → t.pc.toNat = pcn s + 6) := by
  obtain ⟨i, hi, hx⟩ := step_runs hr hf h
  obtain ⟨reg, target, rfl⟩ := Instr.eq_jz_of_opcode (opcode_of_fetchDecode hi .jz h0)
  obtain rfl : reg = regByte r := (I_one_of_fetchDecode hi rfl).symm.trans h1
  exact branch_pc hi rfl rfl ((withReg_regByte r s _).symm.trans hx)

theorem step_jnz_pc {s t : State} (hr : s.running = true) (hf : t.fsr.fault = false) (h : step s = .next t)
    (h0 : I s 0 = 0x0A) {r : Fin 8} (h1 : I s 1 = regByte r) :
    (s.readReg r ≠ 0 → t.pc = field32 s 2) ∧ (s.readReg r = 0 → t.pc.toNat = pcn s + 6) := by
  obtain ⟨i, hi, hx⟩ := step_runs hr hf h
  obtain ⟨reg, target, rfl⟩ := Instr.eq_jnz_of_opcode (opcode_of_fetchDecode hi .jnz h0)
  obtain rfl : reg = regByte r := (I_one_of_fetchDecode hi rfl).symm.trans h1
  obtain ⟨htaken, hfall⟩ := branch_pc hi rfl rfl ((withReg_regByte r s _).symm.trans hx)
  exact ⟨htaken, fun hz => hfall (not_not.mpr hz)⟩

/-! ### Runs -/

/-- What every step keeps holds all along a run. -/
theorem afterSteps_keeps (P : State → Prop) (hstep : ∀ s t, P s → step s = .next t → P t) {s : State} (hs : P s)
    (n : Nat) : P (s.afterSteps n) := by
  induction n generalizing s with
  | zero => exact hs
  | succ n ih =>
    apply ih
    unfold State.after
    split
    · next t ht => exact hstep s t hs ht
    · exact hs
    · exact hs

theorem afterSteps_add (s : State) (n m : Nat) : s.afterSteps (n + m) = (s.afterSteps n).afterSteps m := by
  induction n generalizing s with
  | zero => rw [Nat.zero_add]; rfl
  | succ n ih => rw [Nat.succ_add]; exact ih s.after

/-- A terminal machine stays as it is (40_step_dispatch_halt.md R119). -/
theorem afterSteps_of_terminal {s : State} (h : s.running = false) (n : Nat) : s.afterSteps n = s := by
  induction n with
  | zero => rfl
  | succ n ih => rw [State.afterSteps, after_of_next (step_of_terminal h), ih]

/-! ### Legal states (10_state.md R28, R33, R34) -/

theorem FSR.legal_iff (f : FSR) : f.legal = true ↔ f.fault = f.cause.isSome ∧ ¬ (f.fault = true ∧ f.halted = true) := by
  simp only [FSR.legal, Bool.and_eq_true, beq_iff_eq, Bool.not_eq_true', Bool.and_eq_false_iff, not_and_or,
    Bool.not_eq_true]

theorem State.legal_iff (s : State) :
    s.legal = true ↔ s.mem.wf = true ∧ s.mem.within s.imageLen.toNat = true ∧ s.fsr.legal = true := by
  simp only [State.legal, Bool.and_eq_true, and_assoc]

theorem FSR.legal_setFault {f : FSR} (k : FaultKind) (h : f.halted = false) : (f.setFault k).legal = true := by
  simp [FSR.legal_iff, h]

theorem FSR.legal_setHalted {f : FSR} (hf : f.fault = false) (h : f.legal = true) : f.setHalted.legal = true := by
  rw [FSR.legal_iff] at h ⊢
  exact ⟨h.1, by simp [hf]⟩

/-- What an instruction other than HALT writes keeps the memory's form and bounds. -/
theorem Wrote.mem_legal {i : Instr} {s t : State} (h : Wrote i s t) (hwf : s.mem.wf = true)
    (hin : s.mem.within s.imageLen.toNat = true) : t.mem.wf = true ∧ t.mem.within t.imageLen.toNat = true := by
  cases h with
  | memory ra r width n hi hn hb =>
    exact ⟨Memory.wf_writeBytes _ _ hwf, Memory.within_writeBytes (by rw [leBytes_length]; exact hb) hin⟩
  | raised => exact ⟨hwf, hin⟩
  | register => exact ⟨hwf, hin⟩
  | jumped => exact ⟨hwf, hin⟩
  | advanced => exact ⟨hwf, hin⟩

theorem Wrote.imageLen {i : Instr} {s t : State} (h : Wrote i s t) : t.imageLen = s.imageLen := by
  cases h <;> rfl

theorem step_keeps_imageLen {s t : State} (h : step s = .next t) : t.imageLen = s.imageLen := by
  rcases step_wrote h with ⟨-, rfl⟩ | ⟨-, ⟨k, -, rfl⟩ | ⟨-, rfl⟩ | ⟨i, -, hw⟩⟩
  · rfl
  · rfl
  · rfl
  · exact hw.imageLen

/-- The memory part of the invariant. -/
theorem step_keeps_mem_legal {s t : State} (h : step s = .next t) (hwf : s.mem.wf = true)
    (hin : s.mem.within s.imageLen.toNat = true) : t.mem.wf = true ∧ t.mem.within t.imageLen.toNat = true := by
  rcases step_wrote h with ⟨-, rfl⟩ | ⟨-, ⟨k, -, rfl⟩ | ⟨-, rfl⟩ | ⟨i, -, hw⟩⟩
  · exact ⟨hwf, hin⟩
  · exact ⟨hwf, hin⟩
  · exact ⟨hwf, hin⟩
  · exact hw.mem_legal hwf hin

/-- The FSR part of the invariant. -/
theorem step_keeps_fsr_legal {s t : State} (h : step s = .next t) (hs : s.fsr.legal = true) : t.fsr.legal = true := by
  cases hr : s.running with
  | false => rw [step_of_terminal hr] at h; cases h; exact hs
  | true =>
    obtain ⟨hfault, hhalted⟩ := (State.running_iff s).mp hr
    rcases step_fsr hr h with hsame | ⟨-, rfl⟩ | ⟨k, rfl⟩
    · rw [hsame]; exact hs
    · exact FSR.legal_setHalted hfault hs
    · exact FSR.legal_setFault k hhalted

theorem step_keeps_legal {s t : State} (hs : s.legal = true) (h : step s = .next t) : t.legal = true := by
  obtain ⟨hwf, hin, hfsr⟩ := (State.legal_iff s).mp hs
  obtain ⟨hwf', hin'⟩ := step_keeps_mem_legal h hwf hin
  exact (State.legal_iff t).mpr ⟨hwf', hin', step_keeps_fsr_legal h hfsr⟩

/-! ### The start of a run (70_reset_and_hazards.md R210 to R212) -/

theorem boot_of_le {image : List Byte} (h : image.length ≤ Config.maxImageLen) :
    State.boot image =
      some { State.reset with mem := Memory.ofBytes 0 image, imageLen := BitVec.ofNat 32 image.length } :=
  if_pos h

theorem boot_eq_some {image : List Byte} {t : State} (h : State.boot image = some t) :
    image.length ≤ Config.maxImageLen ∧
      t = { State.reset with mem := Memory.ofBytes 0 image, imageLen := BitVec.ofNat 32 image.length } := by
  by_cases hlen : image.length ≤ Config.maxImageLen
  · rw [boot_of_le hlen, Option.some_inj] at h; exact ⟨hlen, h.symm⟩
  · rw [State.boot, State.load, if_neg hlen] at h; cases h

theorem imageLen_toNat_of_le {image : List Byte} (h : image.length ≤ Config.maxImageLen) :
    (BitVec.ofNat 32 image.length).toNat = image.length := by
  rw [BitVec.toNat_ofNat, Nat.mod_eq_of_lt (by simp only [Config.maxImageLen] at h; omega)]

theorem boot_legal {image : List Byte} {t : State} (h : State.boot image = some t) : t.legal = true := by
  obtain ⟨hlen, rfl⟩ := boot_eq_some h
  refine (State.legal_iff _).mpr ⟨Memory.wf_ofBytes image, ?_, rfl⟩
  exact Memory.within_ofBytes (by rw [imageLen_toNat_of_le hlen, Nat.zero_add])

theorem Memory.read_cons_self {a : Nat} {rest : Memory} (hr : rest.read a = Memory.unlisted) (b : Byte) :
    (Memory.cons a b rest).read a = b := by
  unfold Memory.cons
  split
  · next hb => rw [hr, hb]
  · simp [Memory.read]

theorem Memory.read_cons_ne {a c : Nat} (h : c ≠ a) (b : Byte) (rest : Memory) :
    (Memory.cons a b rest).read c = rest.read c := by
  unfold Memory.cons
  split
  · rfl
  · simp [Memory.read, h]

theorem Memory.wfFrom_ofBytes (a : Nat) (bs : List Byte) : Memory.wfFrom a (Memory.ofBytes a bs) = true := by
  induction bs generalizing a with
  | nil => rfl
  | cons b bs ih => exact Memory.wfFrom_cons le_rfl (ih (a + 1))

/-- The memory of an image reads as the image. -/
theorem Memory.read_ofBytes (a : Nat) {bs : List Byte} {i : Nat} (h : i < bs.length) :
    (Memory.ofBytes a bs).read (a + i) = bs[i] := by
  induction bs generalizing a i with
  | nil => simp at h
  | cons b bs ih =>
    cases i with
    | zero => exact Memory.read_cons_self (Memory.read_of_lt (Memory.wfFrom_ofBytes (a + 1) bs) (Nat.lt_succ_self a)) b
    | succ i =>
      rw [Memory.ofBytes, Memory.read_cons_ne (by omega), show a + (i + 1) = a + 1 + i by omega]
      exact ih (a + 1) (Nat.lt_of_succ_lt_succ h)

theorem Memory.read_image (image : List Byte) {i : Nat} (h : i < image.length) :
    (Memory.ofBytes 0 image).read i = image[i] := by
  simpa only [Nat.zero_add] using Memory.read_ofBytes 0 h

/-! ### Addresses outside the image do not exist (10_state.md R34, 20_memory.md R61) -/

/-- Both results are next states, and these agree inside the image. -/
def AgreeNext (p q : Result) : Prop := ∃ t t', p = .next t ∧ q = .next t' ∧ AgreeInside t t'

section agree

variable {s s' : State}

theorem agree_next {t t' : State} (h : AgreeInside t t') : AgreeNext (.next t) (.next t') := ⟨t, t', rfl, rfl, h⟩

variable (h : AgreeInside s s')
include h

theorem agree_imageLen : s.imageLen = s'.imageLen := by
  obtain ⟨-, -, -, hlen, -⟩ := h
  exact hlen

theorem agree_readReg (r : Fin Config.nreg) : s.readReg r = s'.readReg r := by
  obtain ⟨hx, -⟩ := h
  rw [State.readReg, State.readReg, hx]

theorem agree_running : s.running = s'.running := by
  obtain ⟨-, -, hfsr, -⟩ := h
  rw [State.running, State.running, hfsr]

theorem agree_raise (k : FaultKind) : AgreeInside (s.raise k) (s'.raise k) := by
  obtain ⟨hx, hpc, hfsr, hlen, hmem⟩ := h
  exact ⟨hx, hpc, congrArg (·.setFault k) hfsr, hlen, hmem⟩

theorem agree_latchHalted : AgreeInside s.latchHalted s'.latchHalted := by
  obtain ⟨hx, hpc, hfsr, hlen, hmem⟩ := h
  exact ⟨hx, hpc, congrArg FSR.setHalted hfsr, hlen, hmem⟩

theorem agree_jump (target : Word) : AgreeInside (s.jump target) (s'.jump target) := by
  obtain ⟨hx, -, hfsr, hlen, hmem⟩ := h
  exact ⟨hx, rfl, hfsr, hlen, hmem⟩

theorem agree_advance (n : Nat) : AgreeInside (s.advance n) (s'.advance n) := by
  obtain ⟨hx, hpc, hfsr, hlen, hmem⟩ := h
  exact ⟨hx, by rw [State.advance_pc, State.advance_pc, hpc], hfsr, hlen, hmem⟩

theorem agree_writeReg (r : Fin Config.nreg) (v : Word) : AgreeInside (s.writeReg r v) (s'.writeReg r v) := by
  obtain ⟨hx, hpc, hfsr, hlen, hmem⟩ := h
  exact ⟨congrArg (·.set r v) hx, hpc, hfsr, hlen, hmem⟩

/-- In the canonical form a write of bytes is read back, and elsewhere the memories agreed before. -/
theorem agree_storeBytes (hwf : s.mem.wf = true) (hwf' : s'.mem.wf = true) (a : Nat) (bs : List Byte) :
    AgreeInside (s.storeBytes a bs) (s'.storeBytes a bs) := by
  obtain ⟨hx, hpc, hfsr, hlen, hmem⟩ := h
  refine ⟨hx, hpc, hfsr, hlen, fun c hc => ?_⟩
  rw [State.storeBytes_mem, State.storeBytes_mem]
  by_cases hout : c < a ∨ a + bs.length ≤ c
  · rw [Memory.read_writeBytes_outside hout, Memory.read_writeBytes_outside hout, hmem c hc]
  · obtain ⟨i, rfl⟩ := Nat.exists_eq_add_of_le (show a ≤ c by omega)
    rw [Memory.read_writeBytes_inside (by omega) hwf, Memory.read_writeBytes_inside (by omega) hwf']

/-- A range inside the image holds the same bytes. -/
theorem agree_readBytes {a n : Nat} (hin : a + n ≤ len s) : s.mem.readBytes a n = s'.mem.readBytes a n := by
  obtain ⟨-, -, -, -, hmem⟩ := h
  exact Memory.readBytes_congr fun i hi => hmem (a + i) (by omega)

theorem agree_memRead (a : Word) (n : Nat) : s.memRead a n = s'.memRead a n := by
  have hlen := agree_imageLen h
  rcases Nat.lt_or_ge s.imageLen.toNat (a.toNat + n) with hout | hin
  · rw [State.memRead_of_gt hout, State.memRead_of_gt (hlen ▸ hout)]
  · rw [State.memRead_of_le hin, State.memRead_of_le (hlen ▸ hin), agree_readBytes h hin]

/-- The fetch reads inside the image only. -/
theorem agree_fetchBytes : fetchBytes s = fetchBytes s' := by
  have ⟨_, hpc, _, hlen, hmem⟩ := h
  rcases Nat.lt_or_ge s.pc.toNat s.imageLen.toNat with hin | hout
  · have hop := hmem s.pc.toNat hin
    rw [fetchBytes_of_lt hin, fetchBytes_of_lt (hpc ▸ hlen ▸ hin), ← hpc, ← hlen, ← hop]
    split
    · rfl
    · split
      · next hfit => rw [agree_readBytes h hfit]
      · rfl
  · rw [fetchBytes_of_oob hout, fetchBytes_of_oob (hpc ▸ hlen ▸ hout)]

theorem agree_fetchDecode : fetchDecode s = fetchDecode s' := by
  rw [fetchDecode, fetchDecode, agree_fetchBytes h]

theorem agree_raiseNext (k : FaultKind) : AgreeNext (raise k s) (raise k s') := agree_next (agree_raise h k)

theorem agree_withReg (b : Byte) {go go' : Fin Config.nreg → Result} (hgo : ∀ r, AgreeNext (go r) (go' r)) :
    AgreeNext (withReg b s go) (withReg b s' go') := by
  unfold withReg
  split
  · exact agree_raiseNext h _
  · exact hgo _

theorem agree_withWidth (w : Byte) {go go' : Nat → Result} (hgo : ∀ n, AgreeNext (go n) (go' n)) :
    AgreeNext (withWidth w s go) (withWidth w s' go') := by
  unfold withWidth
  split
  · exact agree_raiseNext h _
  · exact hgo _

theorem agree_execAlu (f : Word → Word → Except FaultKind Word) (regA regB regC : Byte) :
    AgreeNext (execAlu f regA regB regC s) (execAlu f regA regB regC s') := by
  refine agree_withReg h _ fun a => agree_withReg h _ fun b => agree_withReg h _ fun c => ?_
  rw [agree_readReg h b, agree_readReg h c]
  split
  · exact agree_raiseNext h _
  · exact agree_next (agree_advance (agree_writeReg h a _) 4)

theorem agree_execLoadi (reg : Byte) (imm : Word) : AgreeNext (execLoadi reg imm s) (execLoadi reg imm s') :=
  agree_withReg h _ fun r => agree_next (agree_advance (agree_writeReg h r imm) 6)

theorem agree_execLoad (reg addrReg width : Byte) :
    AgreeNext (execLoad reg addrReg width s) (execLoad reg addrReg width s') := by
  refine agree_withWidth h _ fun n => agree_withReg h _ fun r => agree_withReg h _ fun ra => ?_
  rw [effectiveAddress, effectiveAddress, agree_readReg h ra, agree_memRead h]
  split
  · exact agree_raiseNext h _
  · exact agree_next (agree_advance (agree_writeReg h r _) 4)

theorem agree_execStore (hwf : s.mem.wf = true) (hwf' : s'.mem.wf = true) (addrReg reg width : Byte) :
    AgreeNext (execStore addrReg reg width s) (execStore addrReg reg width s') := by
  refine agree_withWidth h _ fun n => agree_withReg h _ fun ra => agree_withReg h _ fun r => ?_
  rw [effectiveAddress, effectiveAddress, agree_readReg h ra, agree_readReg h r]
  have hlen := agree_imageLen h
  rcases Nat.lt_or_ge s.imageLen.toNat ((s'.readReg ra).toNat + n) with hout | hin
  · rw [State.memWrite_of_gt hout, State.memWrite_of_gt (hlen ▸ hout)]
    exact agree_raiseNext h _
  · rw [State.memWrite_of_le hin, State.memWrite_of_le (hlen ▸ hin)]
    exact agree_next (agree_advance (agree_storeBytes h hwf hwf' _ _) 4)

theorem agree_jumpIf {p : Prop} [Decidable p] (target : Word) :
    AgreeNext (if p then .next (s.jump target) else .next (s.advance 6))
      (if p then .next (s'.jump target) else .next (s'.advance 6)) := by
  split
  · exact agree_next (agree_jump h target)
  · exact agree_next (agree_advance h 6)

theorem agree_execJz (reg : Byte) (target : Word) : AgreeNext (execJz reg target s) (execJz reg target s') :=
  agree_withReg h _ fun r => by rw [agree_readReg h r]; exact agree_jumpIf h target

theorem agree_execJnz (reg : Byte) (target : Word) : AgreeNext (execJnz reg target s) (execJnz reg target s') :=
  agree_withReg h _ fun r => by rw [agree_readReg h r]; exact agree_jumpIf h target

theorem agree_exec (hwf : s.mem.wf = true) (hwf' : s'.mem.wf = true) (i : Instr) : AgreeNext (exec i s) (exec i s') := by
  cases i with
  | halt => exact agree_next (agree_latchHalted h)
  | loadi reg imm => exact agree_execLoadi h reg imm
  | add a b c => exact agree_execAlu h aluAdd a b c
  | sub a b c => exact agree_execAlu h aluSub a b c
  | mul a b c => exact agree_execAlu h aluMul a b c
  | div a b c => exact agree_execAlu h aluDiv a b c
  | load reg addrReg width => exact agree_execLoad h reg addrReg width
  | store addrReg reg width => exact agree_execStore h hwf hwf' addrReg reg width
  | jmp target => exact agree_next (agree_jump h target)
  | jz reg target => exact agree_execJz h reg target
  | jnz reg target => exact agree_execJnz h reg target

theorem agree_step (hwf : s.mem.wf = true) (hwf' : s'.mem.wf = true) : AgreeNext (step s) (step s') := by
  cases hr : s.running with
  | false =>
    rw [step_of_terminal hr, step_of_terminal (agree_running h ▸ hr)]
    exact agree_next h
  | true =>
    rw [step_of_running hr, step_of_running (agree_running h ▸ hr), ← agree_fetchDecode h]
    split
    · exact agree_raiseNext h _
    · exact agree_exec h hwf hwf' _

end agree

end Machine
end Sys2Proof

namespace Sys2Proof.Proofs

open Sys2Proof Sys2Proof.Machine Sys2Proof.Spec

/-- Settles O23: memory and FSR separately, from all that a step can write. -/
theorem legalStateIsKept : Obligations.LegalStateIsKept :=
  fun _ _ hs h => step_keeps_legal hs h

/-- Settles O26: agreement inside the image is kept by every operation the meanings reach the state through. -/
theorem outsideTheImageIsInvisible : Obligations.OutsideTheImageIsInvisible := by
  intro s s' hwf hwf' h
  obtain ⟨t, t', ht, ht', hagree⟩ := agree_step h hwf hwf'
  refine ⟨?_, t, t', ht, ht', hagree⟩
  rw [stepAnswer_of_next ht, stepAnswer_of_next ht', agree_running hagree]

/-- Settles O19: the transitions from all that a step can do to FSR; the last clause because every state of a run is
legal. -/
theorem machineStates : Obligations.MachineStates := by
  refine ⟨rfl, fun _ => rfl, fun s t h => ⟨fun hr => ?_, fun hstop => ?_⟩, fun image s n hboot => ?_⟩
  · obtain ⟨hfault, hhalted⟩ := (State.running_iff s).mp hr
    rcases step_fsr hr h with hsame | ⟨hi, rfl⟩ | ⟨k, rfl⟩
    · exact .inl hsame
    · exact .inr (.inl ⟨I_zero_of_fetchDecode hi, rfl, hfault, rfl⟩)
    · exact .inr (.inr ⟨k, stepFaults_of_step h, rfl, hhalted, rfl⟩)
  · rw [step_of_terminal hstop] at h
    cases h
    rfl
  · have hlegal := afterSteps_keeps (fun s => s.legal = true) (fun _ _ => step_keeps_legal) (boot_legal hboot) n
    obtain ⟨-, -, hfsr⟩ := (State.legal_iff _).mp hlegal
    exact ((FSR.legal_iff _).mp hfsr).2

/-- Settles O20: a faulted machine is terminal, and a terminal one stays as it is. -/
theorem faultFlagIsMonotone : Obligations.FaultFlagIsMonotone := by
  refine ⟨rfl, fun _ => rfl, fun s n m hfault => ?_⟩
  have hstop := (State.running_eq_false (s.afterSteps n)).mpr (.inl hfault)
  rw [afterSteps_add, afterSteps_of_terminal hstop]
  exact ⟨hfault, rfl⟩

/-- Settles O25: what one step keeps holds all along a run. -/
theorem imageLengthIsConstant : Obligations.ImageLengthIsConstant :=
  ⟨fun _ _ => step_keeps_imageLen, fun s n =>
    afterSteps_keeps (fun t => t.imageLen = s.imageLen) (fun _ _ ht h => (step_keeps_imageLen h).trans ht) rfl n⟩

/-- Settles O27: the fetch was in bounds, and `L` fits in 32 bits. -/
theorem advanceNeverWraps : Obligations.AdvanceNeverWraps := by
  intro s i h
  obtain ⟨hfit, -, -⟩ := fetchDecode_ok h
  exact ⟨hfit, hfit.trans_lt s.imageLen.isLt, advance_pc_toNat_of_fetchDecode h⟩

/-- Settles O47: only the register shape of what a step can write changes one. -/
theorem onlyTheDestinationRegister : Obligations.OnlyTheDestinationRegister := by
  intro s t r h hne
  rcases step_wrote h with ⟨-, rfl⟩ | ⟨-, ⟨k, -, rfl⟩ | ⟨-, rfl⟩ | ⟨i, hi, hw⟩⟩
  · exact absurd rfl hne
  · exact absurd rfl hne
  · exact absurd rfl hne
  · obtain ⟨hop, hreg, hfsr⟩ := hw.register_of_ne hne
    have hbyte : ∀ op ∈ [Opcode.loadi, .add, .sub, .mul, .div, .load],
        op.byte ∈ ([0x01, 0x02, 0x03, 0x04, 0x05, 0x06] : List Byte) := by decide
    exact ⟨by rw [I_zero_of_fetchDecode hi]; exact hbyte _ hop, I_one_of_fetchDecode hi hreg, hfsr⟩

/-- Settles O48: the sequential opcodes together, each jump from its own instruction. -/
theorem pcAfterStep : Obligations.PcAfterStep := by
  intro s t h
  refine ⟨fun hstop => ?_, fun hr hf => ?_, fun hr hf => ⟨step_halt_pc hr hf h, fun h0 => ?_, fun h0 => ?_,
    step_jmp_pc hr hf h, fun r h1 => ?_⟩⟩
  · rw [step_of_terminal hstop] at h
    cases h
    rfl
  · obtain ⟨hfault, -⟩ := (State.running_iff s).mp hr
    rcases step_fsr hr h with hsame | ⟨-, rfl⟩ | ⟨k, rfl⟩
    · rw [hsame, hfault] at hf; cases hf
    · rfl
    · rfl
  · exact step_sequential_pc hr hf h .loadi (by decide) h0
  · have hbyte : ∀ b ∈ ([0x02, 0x03, 0x04, 0x05, 0x06, 0x07] : List Byte),
        ∃ op ∈ sequentialOpcodes, b = op.byte ∧ op.length = 4 := by decide
    obtain ⟨op, hop, hb, hlen⟩ := hbyte _ h0
    rw [step_sequential_pc hr hf h op hop hb, hlen]
  · exact ⟨fun h0 => (step_jz_pc hr hf h h0 h1).1, fun h0 => (step_jz_pc hr hf h h0 h1).2,
      fun h0 => (step_jnz_pc hr hf h h0 h1).1, fun h0 => (step_jnz_pc hr hf h h0 h1).2⟩

/-- Settles O54: the jump itself never looks at its target; the next opcode fetch does. -/
theorem jumpOutOfTheImage : Obligations.JumpOutOfTheImage := by
  intro s i target hr hi hout hjump
  have hstep : step s = .next (s.jump target) := by
    rw [step_of_running hr, hi]
    rcases hjump with rfl | ⟨r, rfl, hz⟩ | ⟨r, rfl, hnz⟩
    · rfl
    · exact (withReg_regByte r s _).trans (if_pos hz)
    · exact (withReg_regByte r s _).trans (if_pos hnz)
  have hr' : (s.jump target).running = true := hr
  refine ⟨by rw [stepAnswer_of_next hstep, hr'], _, hstep, ⟨fun _ => rfl, rfl, fun _ => rfl, rfl⟩, rfl, ?_⟩
  exact stepFaults_of_fetchDecode hr' (fetchDecode_of_oob hout)

/-- Settles O55: the cells of an image, laid out from address 0, read as the image. -/
theorem bootState : Obligations.BootState := by
  intro image hlen
  refine ⟨_, boot_of_le hlen, fun r => ?_, rfl, rfl, rfl, rfl, rfl, rfl, imageLen_toNat_of_le hlen, fun i hi => ?_⟩
  · simp [State.readReg, State.reset]
  · have hread := Memory.read_image image hi
    refine ⟨hread, (if_pos ?_).trans (congrArg some hread)⟩
    exact (imageLen_toNat_of_le hlen).symm ▸ hi

/-- Settles O21: the packing is one fact about two bits and a code of three bits. -/
theorem fsrLayout : Obligations.FsrLayout :=
  ⟨fun f => packed_fields f.fault f.halted ⟨f.causeCode, f.causeCode_lt⟩, rfl, rfl, rfl, rfl, rfl, rfl⟩

/-- Settles O24: an image's cells are in the canonical form and inside it, and FSR is 0. -/
theorem resetAndBootAreLegal : Obligations.ResetAndBootAreLegal :=
  ⟨rfl, fun _ _ => boot_legal⟩

end Sys2Proof.Proofs
end

section
/-! PROOFS of the statements about memory (20_memory.md), and the laws they need. -/

namespace Sys2Proof

open Spec

/-! ### Little-endian bytes and sums (20_memory.md R52, R54) -/

theorem getElem_leBytes {n i : Nat} (v : Nat) (h : i < (leBytes n v).length) : (leBytes n v)[i] = byteOf v i := by
  induction n generalizing v i with
  | zero => cases h
  | succ n ih =>
    cases i with
    | zero => simp [leBytes, byteOf]
    | succ i =>
      simp only [leBytes, List.getElem_cons_succ]
      rw [ih, byteOf, byteOf, Nat.div_div_eq_div_mul, show 8 * (i + 1) = 8 + 8 * i by omega, pow_add]
      rfl

/-- The bytes of a value shifted down by whole bytes are later bytes of the value. -/
theorem byteOf_div (v d i : Nat) : byteOf (v / 2 ^ (8 * d)) i = byteOf v (d + i) := by
  rw [byteOf, byteOf, Nat.div_div_eq_div_mul, ← pow_add, ← Nat.mul_add]

theorem leSum_succ (m : Machine.Memory) (a n : Nat) :
    leSum m a (n + 1) = (m.read a).toNat + 256 * leSum m (a + 1) n := by
  rw [leSum, Finset.sum_range_succ', leSum, Finset.mul_sum, Nat.add_comm]
  congr 1
  · simp
  · refine Finset.sum_congr rfl fun i _ => ?_
    rw [show a + (i + 1) = a + 1 + i by omega, show 8 * (i + 1) = 8 + 8 * i by omega, pow_add, Nat.mul_assoc]
    rfl

theorem leValue_readBytes (m : Machine.Memory) (a n : Nat) : leValue (m.readBytes a n) = leSum m a n := by
  induction n generalizing a with
  | zero => rfl
  | succ n ih => rw [Machine.Memory.readBytes, leValue, ih, leSum_succ]

namespace Machine

/-! ### The canonical form is determined by what it reads as (log entry 3) -/

namespace Memory

theorem wfFrom_cons_iff {lo k : Nat} {v : Byte} {rest : Memory} :
    wfFrom lo ((k, v) :: rest) = true ↔ lo ≤ k ∧ v ≠ unlisted ∧ wfFrom (k + 1) rest = true := by
  simp only [wfFrom, Bool.and_eq_true, decide_eq_true_eq, and_assoc]

theorem read_head (k : Nat) (v : Byte) (rest : Memory) : read ((k, v) :: rest) k = v := if_pos rfl

theorem read_tail {k a : Nat} (h : a ≠ k) (v : Byte) (rest : Memory) : read ((k, v) :: rest) a = rest.read a :=
  if_neg h

/-- An address that reads as a listed one lies at or above where the canonical form starts. -/
theorem le_of_read_ne {lo a : Nat} {m : Memory} (hm : wfFrom lo m = true) (h : m.read a ≠ unlisted) : lo ≤ a :=
  Nat.le_of_not_lt fun ha => h (read_of_lt hm ha)

/-- A canonical memory that reads the same where another has its first cell begins no higher than there. -/
theorem head_le_head {lo k k' : Nat} {v v' : Byte} {rest rest' : Memory} (hm : wfFrom lo ((k, v) :: rest) = true)
    (hm' : wfFrom lo ((k', v') :: rest') = true) (h : read ((k, v) :: rest) k' = read ((k', v') :: rest') k') :
    k ≤ k' := by
  obtain ⟨-, hv, hrest⟩ := wfFrom_cons_iff.mp hm
  obtain ⟨-, hv', -⟩ := wfFrom_cons_iff.mp hm'
  rw [read_head] at h
  exact le_of_read_ne (wfFrom_cons_iff.mpr ⟨le_rfl, hv, hrest⟩) (h ▸ hv')

/-- By induction on the cells: the first cells agree, and above them the rests read the same. -/
theorem eq_of_read {lo : Nat} {m m' : Memory} (hm : wfFrom lo m = true) (hm' : wfFrom lo m' = true)
    (h : ∀ a, m.read a = m'.read a) : m = m' := by
  induction m generalizing lo m' with
  | nil =>
    cases m' with
    | nil => rfl
    | cons c' rest' =>
      obtain ⟨-, hv', -⟩ := wfFrom_cons_iff.mp hm'
      exact absurd ((h c'.1).trans (read_head ..)).symm hv'
  | cons c rest ih =>
    obtain ⟨k, v⟩ := c
    obtain ⟨-, hv, hrest⟩ := wfFrom_cons_iff.mp hm
    cases m' with
    | nil => exact absurd ((read_head ..).symm.trans (h k)) hv
    | cons c' rest' =>
      obtain ⟨k', v'⟩ := c'
      obtain ⟨-, -, hrest'⟩ := wfFrom_cons_iff.mp hm'
      obtain rfl : k = k' := le_antisymm (head_le_head hm hm' (h k')) (head_le_head hm' hm (h k).symm)
      obtain rfl : v = v' := by simpa only [read_head] using h k
      refine congrArg _ (ih hrest hrest' fun a => ?_)
      by_cases ha : a = k
      · rw [read_of_lt hrest (by omega), read_of_lt hrest' (by omega)]
      · simpa only [read_tail ha] using h a

/-- Reading some of the bytes of a value just written gives the bytes of the value shifted down to the first of them. -/
theorem readBytes_writeBytes_leBytes {m : Memory} (hm : m.wf = true) (a v : Nat) {d k n : Nat} (h : d + k ≤ n) :
    (m.writeBytes a (leBytes n v)).readBytes (a + d) k = leBytes k (v / 2 ^ (8 * d)) := by
  apply List.ext_getElem
  · rw [readBytes_length, leBytes_length]
  · intro i hi _
    rw [readBytes_length] at hi
    have hin : d + i < (leBytes n v).length := by rw [leBytes_length]; omega
    rw [getElem_readBytes, Nat.add_assoc, read_writeBytes_inside hin hm, getElem_leBytes, getElem_leBytes, byteOf_div]

end Memory

/-! ### What a write of little-endian bytes does to the state (20_memory.md R55) -/

theorem writesBytes_storeBytes {s : State} (hm : s.mem.wf = true) (a n v : Nat) :
    WritesBytes a n v s (s.storeBytes a (leBytes n v)) := by
  refine ⟨fun i hi => ?_, fun c hc => ?_, fun _ => rfl, rfl, rfl⟩
  · have hin : i < (leBytes n v).length := by rw [leBytes_length]; exact hi
    rw [State.storeBytes_mem, Memory.read_writeBytes_inside hin hm, getElem_leBytes]
  · exact Memory.read_writeBytes_outside (by rw [leBytes_length]; exact hc) s.mem

/-! ### LOAD and STORE with legal operands (43_load_store.md R152, R153) -/

theorem withWidth_ofNat {n : Nat} (h : n ∈ [1, 2, 4, 8]) (s : State) (go : Nat → Result) :
    withWidth (BitVec.ofNat 8 n) s go = go n := by
  have hn : n = 1 ∨ n = 2 ∨ n = 4 ∨ n = 8 := by simpa using h
  have hw : accessWidth? (BitVec.ofNat 8 n) = some n :=
    accessWidth?_eq_some.mpr ⟨by rw [BitVec.toNat_ofNat]; omega, hn⟩
  rw [withWidth, hw]

section lsu

variable {s : State} {p q : Fin 8} {n : Nat} (hn : n ∈ [1, 2, 4, 8])
include hn

theorem exec_load_of_gt (h : len s < (effectiveAddress q s).toNat + n) :
    exec (.load (regByte p) (regByte q) (BitVec.ofNat 8 n)) s = .next (s.raise .outOfBounds) := by
  rw [exec, execLoad, withWidth_ofNat hn, withReg_regByte, withReg_regByte, State.memRead_of_gt h]
  rfl

theorem exec_store_of_gt (h : len s < (effectiveAddress p s).toNat + n) :
    exec (.store (regByte p) (regByte q) (BitVec.ofNat 8 n)) s = .next (s.raise .outOfBounds) := by
  rw [exec, execStore, withWidth_ofNat hn, withReg_regByte, withReg_regByte, State.memWrite_of_gt h]
  rfl

theorem exec_store_of_le (h : (effectiveAddress p s).toNat + n ≤ len s) :
    exec (.store (regByte p) (regByte q) (BitVec.ofNat 8 n)) s =
      .next ((s.storeBytes (effectiveAddress p s).toNat (leBytes n (storeData n (s.readReg q)))).advance 4) := by
  rw [exec, execStore, withWidth_ofNat hn, withReg_regByte, withReg_regByte, State.memWrite_of_le h]

end lsu

/-! ### Fetching an instruction from its own encoding (40_step_dispatch_halt.md R113) -/

theorem fetchDecode_of_encode {s : State} {i : Instr} (hbytes : s.mem.readBytes (pcn s) i.length = encode i)
    (hdec : decode (encode i) = .ok (i, [])) (hfit : pcn s + i.length ≤ len s) : fetchDecode s = .ok i := by
  have hop : Opcode.ofByte? (s.mem.read (pcn s)) = some i.opcode := by
    obtain ⟨n, hn⟩ := Nat.exists_eq_add_of_le' i.opcode.length_pos
    rw [Instr.length, hn, Memory.readBytes, encode, List.cons.injEq] at hbytes
    rw [hbytes.1, Opcode.ofByte?_byte]
  have hbytes' : s.mem.readBytes (pcn s) i.opcode.length = encode i := hbytes
  rw [fetchDecode_of_fits hop hfit, hbytes', hdec]

/-- A one-byte STORE at `pc`. -/
theorem fetchDecode_store_one {s : State} {p q : Fin 8} (hfit : pcn s + 4 ≤ len s) (h0 : I s 0 = 0x07)
    (h1 : I s 1 = regByte p) (h2 : I s 2 = regByte q) (h3 : I s 3 = 0x01) :
    fetchDecode s = .ok (.store (regByte p) (regByte q) 1) := by
  refine fetchDecode_of_encode ?_ rfl hfit
  show [I s 0, I s 1, I s 2, I s 3] = _
  rw [h0, h1, h2, h3]
  rfl

theorem fetchDecode_halt {s : State} (hin : pcn s < len s) (h0 : I s 0 = 0x00) : fetchDecode s = .ok .halt :=
  fetchDecode_of_encode (congrArg (fun b => [b]) h0) rfl hin

/-- After a one-byte STORE over the byte that follows it, the byte at the new `pc` is the low byte of the
register stored. -/
theorem step_store_over_next_opcode {s : State} {p q : Fin 8} (hr : s.running = true) (hwf : s.mem.wf = true)
    (hi : fetchDecode s = .ok (.store (regByte p) (regByte q) 1)) (ha : (effectiveAddress p s).toNat = pcn s + 4)
    (hin : pcn s + 4 < len s) :
    ∃ t, step s = .next t ∧ t.running = true ∧ pcn t = pcn s + 4 ∧ len t = len s ∧
      I t 0 = BitVec.ofNat 8 (s.readReg q).toNat := by
  have hx := exec_store_of_le (q := q) (n := 1) (by decide) (show (effectiveAddress p s).toNat + 1 ≤ len s by omega)
  have hpc : (s.advance 4).pc.toNat = pcn s + 4 := advance_pc_toNat_of_fetchDecode hi
  obtain ⟨hbytes, -⟩ := writesBytes_storeBytes hwf (effectiveAddress p s).toNat 1 (storeData 1 (s.readReg q))
  have hbyte : byteOf (storeData 1 (s.readReg q)) 0 = BitVec.ofNat 8 (s.readReg q).toNat := by
    apply BitVec.eq_of_toNat_eq
    simp [byteOf, storeData]
  have hstep := step_of_running hr
  rw [hi] at hstep
  refine ⟨_, hstep.trans hx, hr, hpc, rfl, ?_⟩
  rw [← hbyte, ← hbytes 0 Nat.one_pos, ha, ← hpc]
  rfl

end Machine
end Sys2Proof

namespace Sys2Proof.Proofs

open Sys2Proof Sys2Proof.Machine Sys2Proof.Spec

/-- Settles O28: the first cells of canonical memories that read the same agree, and so do the rests. -/
theorem readsDetermineMemory : Obligations.ReadsDetermineMemory :=
  fun _ _ => Memory.eq_of_read

/-- Settles O51: byte `i` of the little-endian bytes is the byte of the value at bit `8*i`. -/
theorem memWriteRule : Obligations.MemWriteRule :=
  fun _ _ _ _ _ hm => ⟨fun h => ⟨_, State.memWrite_of_le h, writesBytes_storeBytes hm .., rfl⟩, State.memWrite_of_gt⟩

/-- Settles O52: the bytes read are the little-endian bytes of the value shifted down to `b`. -/
theorem mixedWidthReads : Obligations.MixedWidthReads := by
  intro s t a b n m v _ _ hwf hin hab hbm h
  rw [State.memWrite_of_le hin] at h
  cases h
  obtain ⟨d, hd⟩ := Nat.exists_eq_add_of_le hab
  rw [State.memRead_of_le (s := s.storeBytes _ _) (hbm.trans hin), State.storeBytes_mem, hd,
    Memory.readBytes_writeBytes_leBytes hwf _ _ (by omega), leValue_leBytes, Nat.add_sub_cancel_left, pow_mul 2 8 m]
  rfl

/-- Settles O53: the STORE completes, its byte stands where the next step fetches its opcode. -/
theorem nextFetchSeesStore : Obligations.NextFetchSeesStore := by
  intro s p q hr hwf hfit h0 h1 h2 h3 ha
  have hi := fetchDecode_store_one (by omega) h0 h1 h2 h3
  obtain ⟨t, ht, hr', hpc, hlen, hop⟩ := step_store_over_next_opcode hr hwf hi ha (by omega)
  have hin : pcn t < len t := by rw [hpc, hlen]; omega
  have hbyte : (I t 0).toNat = (s.readReg q).toNat % 256 := by rw [hop]; rfl
  refine ⟨t, ht, hpc, fun hz => ⟨t.latchHalted, ?_, rfl, ?_, rfl⟩, fun hill => ?_⟩
  · rw [step_of_running hr', fetchDecode_halt hin (BitVec.eq_of_toNat_eq (hbyte.trans hz))]
    rfl
  · exact ((State.running_iff t).mp hr').1
  · refine stepFaults_of_fetchDecode hr' (fetchDecode_of_illegal hin (Opcode.ofByte?_eq_none.mpr ?_))
    exact hill.trans_eq hbyte.symm

/-- Settles O45: the bounds check is over unbounded integers, and no image is longer than `2^32 - 1` bytes. -/
theorem dataAccessOutOfBoundsTraps : Obligations.DataAccessOutOfBoundsTraps := by
  refine ⟨fun s p q n hn => ⟨fun h => ⟨_, exec_load_of_gt hn h, faults_raise _ s⟩,
    fun h => ⟨_, exec_store_of_gt hn h, faults_raise _ s⟩⟩, fun s p q hq => ?_⟩
  have hout : len s < (effectiveAddress q s).toNat + 4 := by
    have hlen : len s < 2 ^ 32 := s.imageLen.isLt
    have haddr : (effectiveAddress q s).toNat = 0xFFFFFFFF := congrArg BitVec.toNat hq
    omega
  exact ⟨_, exec_load_of_gt (n := 4) (by decide) hout, faults_raise _ s⟩

/-- Settles O50: the little-endian reading of the bytes is the sum. -/
theorem memReadRule : Obligations.MemReadRule :=
  fun _ _ _ _ => ⟨fun h => by rw [State.memRead_of_le h, leValue_readBytes], State.memRead_of_gt⟩

/-- Settles O58: no opcode byte lies inside the empty image. -/
theorem emptyImageFaults : Obligations.EmptyImageFaults :=
  ⟨_, boot_of_le (Nat.zero_le _), rfl, stepFaults_of_fetchDecode rfl (fetchDecode_of_oob le_rfl)⟩

end Sys2Proof.Proofs
end

section
/-! PROOFS of the statements about the encoding (30_encoding.md), and the laws they need. -/

namespace Sys2Proof

/-! ### The decoder reads back what the encoder writes (30_encoding.md R81 to R90) -/

/-- A word is the word its four little-endian bytes hold. -/
theorem u32_leValue_leBytes (w : Word) : u32 (leValue (leBytes 4 w.toNat)) = w := by
  rw [leValue_leBytes, Nat.mod_eq_of_lt (show w.toNat < 256 ^ 4 from w.isLt), u32_toNat]

theorem decodeRegWord_leBytes (mk : Byte → Word → Instr) (reg : Byte) (w : Word) (rest : List Byte) :
    decodeRegWord mk (reg :: leBytes 4 w.toNat ++ rest) = .ok (mk reg w, rest) :=
  congrArg (fun v => (.ok (mk reg v, rest) : Decoded)) (u32_leValue_leBytes w)

theorem decodeWord_leBytes (mk : Word → Instr) (w : Word) (rest : List Byte) :
    decodeWord mk (leBytes 4 w.toNat ++ rest) = .ok (mk w, rest) :=
  congrArg (fun v => (.ok (mk v, rest) : Decoded)) (u32_leValue_leBytes w)

theorem decodeRegsWidth_of_legal (mk : Byte → Byte → Byte → Instr) (a b : Byte) {w : Byte}
    (hw : (accessWidth? w).isSome = true) (rest : List Byte) :
    decodeRegsWidth mk ([a, b, w] ++ rest) = .ok (mk a b w, rest) :=
  if_pos hw

/-- The operand formats undo the operand bytes; the width is the one field they check. -/
theorem decodeOperands_operandBytes {i : Instr} (hwf : i.wellFormed = true) (rest : List Byte) :
    decodeOperands i.opcode (i.operandBytes ++ rest) = .ok (i, rest) := by
  cases i with
  | halt => rfl
  | loadi reg imm => exact decodeRegWord_leBytes .loadi reg imm rest
  | add a b c => rfl
  | sub a b c => rfl
  | mul a b c => rfl
  | div a b c => rfl
  | load reg addrReg width => exact decodeRegsWidth_of_legal .load reg addrReg hwf rest
  | store addrReg reg width => exact decodeRegsWidth_of_legal .store addrReg reg hwf rest
  | jmp target => exact decodeWord_leBytes .jmp target rest
  | jz reg target => exact decodeRegWord_leBytes .jz reg target rest
  | jnz reg target => exact decodeRegWord_leBytes .jnz reg target rest

theorem Opcode.ofByte?_of_eq_byte {b : Byte} {op : Opcode} (h : b = op.byte) : Opcode.ofByte? b = some op := by
  rw [h, Opcode.ofByte?_byte]

theorem decode_opcodeByte (op : Opcode) (bs : List Byte) : decode (op.byte :: bs) = decodeOperands op bs := by
  rw [decode, Opcode.ofByte?_byte]

theorem decode_encode {i : Instr} (hwf : i.wellFormed = true) (rest : List Byte) :
    decode (encode i ++ rest) = .ok (i, rest) := by
  rw [encode, List.cons_append, decode_opcodeByte, decodeOperands_operandBytes hwf]

/-! ### Operands cut short (30_encoding.md R82, R91) -/

theorem decodeRegWord_truncated (mk : Byte → Word → Instr) : ∀ bs : List Byte,
    decodeRegWord mk bs = .error .truncatedOperands ↔ bs.length < 5
  | [] | [_] | [_, _] | [_, _, _] | [_, _, _, _] => by simp [decodeRegWord]
  | _ :: _ :: _ :: _ :: _ :: _ => by simp [decodeRegWord]

theorem decodeWord_truncated (mk : Word → Instr) : ∀ bs : List Byte,
    decodeWord mk bs = .error .truncatedOperands ↔ bs.length < 4
  | [] | [_] | [_, _] | [_, _, _] => by simp [decodeWord]
  | _ :: _ :: _ :: _ :: _ => by simp [decodeWord]

theorem decodeRegs_truncated (mk : Byte → Byte → Byte → Instr) : ∀ bs : List Byte,
    decodeRegs mk bs = .error .truncatedOperands ↔ bs.length < 3
  | [] | [_] | [_, _] => by simp [decodeRegs]
  | _ :: _ :: _ :: _ => by simp [decodeRegs]

/-- The width is judged only once all three operand bytes are there, so it never hides a truncation. -/
theorem decodeRegsWidth_truncated (mk : Byte → Byte → Byte → Instr) : ∀ bs : List Byte,
    decodeRegsWidth mk bs = .error .truncatedOperands ↔ bs.length < 3
  | [] | [_] | [_, _] => by simp [decodeRegsWidth]
  | _ :: _ :: w :: _ => by cases hw : (accessWidth? w).isSome <;> simp [decodeRegsWidth, hw]

theorem decodeOperands_truncated (op : Opcode) (bs : List Byte) :
    decodeOperands op bs = .error .truncatedOperands ↔ bs.length + 1 < op.length := by
  rw [← Nat.lt_sub_iff_add_lt]
  cases op with
  | halt => simp [decodeOperands, Opcode.length]
  | loadi => exact decodeRegWord_truncated .loadi bs
  | add => exact decodeRegs_truncated .add bs
  | sub => exact decodeRegs_truncated .sub bs
  | mul => exact decodeRegs_truncated .mul bs
  | div => exact decodeRegs_truncated .div bs
  | load => exact decodeRegsWidth_truncated .load bs
  | store => exact decodeRegsWidth_truncated .store bs
  | jmp => exact decodeWord_truncated .jmp bs
  | jz => exact decodeRegWord_truncated .jz bs
  | jnz => exact decodeRegWord_truncated .jnz bs

/-! ### The opcode table (30_encoding.md R82) -/

/-- The table has one row for each opcode, with the model's byte and length. -/
theorem mem_opcodeTable {b : Byte} {op : Opcode} {n : Nat} :
    (b.toNat, op, n) ∈ Spec.opcodeTable ↔ b = op.byte ∧ n = op.length := by
  constructor
  · have hrows : ∀ row ∈ Spec.opcodeTable, row.1 = row.2.1.byte.toNat ∧ row.2.2 = row.2.1.length := by decide
    intro h
    obtain ⟨hb, hn⟩ := hrows _ h
    exact ⟨BitVec.eq_of_toNat_eq hb, hn⟩
  · rintro ⟨rfl, rfl⟩
    cases op <;> decide

/-! ### Illegal widths (30_encoding.md R86, R87) -/

theorem Opcode.length_of_dataAccess {op : Opcode} (hop : op = .load ∨ op = .store) : op.length = 4 := by
  rcases hop with rfl | rfl
  · rfl
  · rfl

theorem accessWidth?_isSome_iff (w : Byte) : (accessWidth? w).isSome = true ↔ w.toNat ∈ [1, 2, 4, 8] := by
  simp only [Option.isSome_iff_exists, accessWidth?_eq_some, exists_eq_left', List.mem_cons, List.not_mem_nil, or_false]

theorem decodeRegsWidth_of_illegal (mk : Byte → Byte → Byte → Instr) (a b : Byte) {w : Byte}
    (hw : w.toNat ∉ [1, 2, 4, 8]) (rest : List Byte) :
    decodeRegsWidth mk (a :: b :: w :: rest) = .error .illegalWidth :=
  if_neg (mt (accessWidth?_isSome_iff w).mp hw)

theorem decode_of_illegalWidth {op : Opcode} (hop : op = .load ∨ op = .store) (a b : Byte) {w : Byte}
    (hw : w.toNat ∉ [1, 2, 4, 8]) (rest : List Byte) :
    decode (op.byte :: a :: b :: w :: rest) = .error .illegalWidth := by
  rw [decode_opcodeByte]
  rcases hop with rfl | rfl
  · exact decodeRegsWidth_of_illegal .load a b hw rest
  · exact decodeRegsWidth_of_illegal .store a b hw rest

namespace Machine

open Spec

/-- The fetch refuses a LOAD or STORE that fits in the image and has an illegal width, whatever its register bytes. -/
theorem fetchDecode_of_illegalWidth {s : State} {op : Opcode} (hop : op = .load ∨ op = .store) (h0 : I s 0 = op.byte)
    (hfit : pcn s + 4 ≤ len s) (hw : (I s 3).toNat ∉ [1, 2, 4, 8]) : fetchDecode s = .error .invalidOpcode := by
  have hlen := Opcode.length_of_dataAccess hop
  have hbytes : s.mem.readBytes (pcn s) op.length = [op.byte, I s 1, I s 2, I s 3] := by rw [hlen, ← h0]; rfl
  rw [fetchDecode_of_fits (Opcode.ofByte?_of_eq_byte h0) (by rw [hlen]; exact hfit), hbytes, decode_of_illegalWidth hop _ _ hw]
  rfl

end Machine
end Sys2Proof

namespace Sys2Proof.Proofs

open Sys2Proof Sys2Proof.Machine Sys2Proof.Spec

/-- Settles O2: the opcode lookup undoes the opcode byte, and each operand format undoes the operand bytes. -/
theorem decodeEncodeRoundTrip : Obligations.DecodeEncodeRoundTrip :=
  fun _ rest hwf => decode_encode hwf rest

/-- Settles O3: the decoder read each field of the answer off the bytes, and left none out. -/
theorem encodeDecodeRoundTrip : Obligations.EncodeDecodeRoundTrip :=
  fun _ _ _ h => decode_ok h

/-- Settles O4: what was read is an encoding, whose byte and length are the table's; and each operand format finds its
bytes cut short exactly when there are fewer than the table says. -/
theorem decodedLengthIsTheTables : Obligations.DecodedLengthIsTheTables := by
  refine ⟨fun b bs rest i h => ?_, fun b op n bs h => ?_⟩
  · obtain ⟨-, hbytes⟩ := decode_ok h
    have hlen := congrArg List.length hbytes
    rw [List.length_cons, List.length_append, encode_length] at hlen
    exact ⟨i.length, mem_opcodeTable.mpr ⟨(List.cons.inj hbytes).1, rfl⟩, hlen⟩
  · obtain ⟨rfl, rfl⟩ := mem_opcodeTable.mp h
    rw [decode_opcodeByte, decodeOperands_truncated]

/-- Settles O5: the opcode lookup fails before any operand byte is fetched. -/
theorem illegalOpcodeFaults : Obligations.IllegalOpcodeFaults :=
  fun _ hr hin hop => stepFaults_of_fetchDecode hr (fetchDecode_of_illegal hin (Opcode.ofByte?_eq_none.mpr hop))

/-- Settles O6: the bounds check comes before the decoder's width check, and no check looks at a register byte. -/
theorem illegalWidthFaults : Obligations.IllegalWidthFaults := by
  intro s hr hin h0
  obtain ⟨op, hop, hbyte⟩ : ∃ op : Opcode, (op = .load ∨ op = .store) ∧ I s 0 = op.byte := by
    rcases h0 with h0 | h0
    · exact ⟨.load, .inl rfl, h0⟩
    · exact ⟨.store, .inr rfl, h0⟩
  refine ⟨fun hshort => ?_, fun hfit hw => ?_⟩
  · refine stepFaults_of_fetchDecode hr (fetchDecode_of_short hin (Opcode.ofByte?_of_eq_byte hbyte) ?_)
    rw [Opcode.length_of_dataAccess hop]
    exact hshort
  · exact stepFaults_of_fetchDecode hr (fetchDecode_of_illegalWidth hop hbyte hfit hw)

/-- Settles O1: each byte string is the encoding of its instruction, which decoding gives back. -/
theorem specWordsDecode : Obligations.SpecWordsDecode :=
  ⟨decode_encode (i := .halt) rfl [],
    decode_encode (i := .loadi 1 0x89ABCDEF) rfl [],
    decode_encode (i := .add 2 0 1) rfl [],
    decode_encode (i := .sub 5 1 5) rfl [],
    decode_encode (i := .mul 5 4 3) rfl [],
    decode_encode (i := .div 4 1 3) rfl [],
    decode_encode (i := .load 5 0 2) rfl [],
    decode_encode (i := .store 0 1 4) rfl [],
    decode_encode (i := .jmp 0x12345678) rfl [],
    decode_encode (i := .jz 1 0x39) rfl [],
    decode_encode (i := .jnz 0 0x12) rfl []⟩

end Sys2Proof.Proofs
end

section
/-! PROOFS of the statements about the step, the dispatch and HALT (40_step_dispatch_halt.md), and the laws they need. -/

namespace Sys2Proof

open Spec

/-! ### The bytes and values of the pseudocode are the model's (20_memory.md R55, 42_arithmetic.md R140) -/

/-- The bytes a STORE takes from its data are the low bytes of the register. -/
theorem leBytes_storeData (n : Nat) (v : Word) : leBytes n (Machine.storeData n v) = leBytes n v.toNat := by
  unfold Machine.storeData
  split
  · rfl
  · rw [pow_mul]
    exact leBytes_mod n v.toNat

/-- The pseudocode's loop over `mem[a+i]` writes the little-endian bytes. -/
theorem pStore_eq_writeBytes (m : Machine.Memory) (a n v : Nat) : pStore m a n v = m.writeBytes a (leBytes n v) := by
  induction n generalizing m a v with
  | zero => rfl
  | succ n ih =>
    have hbyte : ∀ i, byteOf v (i + 1) = byteOf (v / 256) i := fun i => by
      rw [Nat.add_comm]
      exact (byteOf_div v 1 i).symm
    have hfirst : byteOf v 0 = BitVec.ofNat 8 v := by simp [byteOf]
    rw [leBytes, Machine.Memory.writeBytes, ← ih, ← hfirst, pStore, pStore, List.range_succ_eq_map, List.foldl_cons,
      List.foldl_map]
    simp only [Nat.succ_eq_add_one, hbyte, Nat.add_zero, Nat.add_right_comm a 1, ← Nat.add_assoc]

theorem u32_toNat_add (b c : Word) : u32 ((b.toNat : Int) + c.toNat) = b + c := by
  rw [u32, BitVec.ofInt_add]
  exact congrArg₂ (· + ·) (u32_toNat b) (u32_toNat c)

theorem u32_toNat_mul (b c : Word) : u32 ((b.toNat : Int) * c.toNat) = b * c := by
  rw [u32, BitVec.ofInt_mul]
  exact congrArg₂ (· * ·) (u32_toNat b) (u32_toNat c)

theorem u32_toNat_sub (b c : Word) : u32 ((b.toNat : Int) - c.toNat) = b - c := by
  rw [u32, Int.sub_eq_add_neg, BitVec.ofInt_add, BitVec.ofInt_neg, BitVec.sub_eq_add_neg]
  exact congrArg₂ (· + -·) (u32_toNat b) (u32_toNat c)

/-- The pseudocode's length of an opcode is the table's. -/
theorem lengthOf_byte (op : Opcode) : lengthOf op.byte.toNat = op.length := by
  cases op <;> rfl

/-- The opcodes 6 and 7 of the pseudocode are LOAD and STORE. -/
theorem Opcode.byte_eq_dataAccess (op : Opcode) :
    (op.byte.toNat = 6 ∨ op.byte.toNat = 7) ↔ (op = .load ∨ op = .store) := by
  cases op <;> decide

namespace Machine

/-! ### The operands of a fetched instruction, read off the bytes at `pc` -/

theorem threeBytes_of_fetchDecode {s : State} {i : Instr} (h : fetchDecode s = .ok i) {a b c : Byte}
    (hbytes : i.operandBytes = [a, b, c]) : I s 1 = a ∧ I s 2 = b ∧ I s 3 = c := by
  have henc : encode i = [i.opcode.byte, a, b, c] := by rw [encode, hbytes]
  exact ⟨I_of_fetchDecode h (by rw [henc]; rfl), I_of_fetchDecode h (by rw [henc]; rfl),
    I_of_fetchDecode h (by rw [henc]; rfl)⟩

theorem regWord_of_fetchDecode {s : State} {i : Instr} (h : fetchDecode s = .ok i) {reg : Byte} {w : Word}
    (hbytes : i.operandBytes = reg :: leBytes 4 w.toNat) : I s 1 = reg ∧ field32 s 2 = w :=
  ⟨I_of_fetchDecode h (by rw [encode, hbytes]; rfl), field32_two_of_fetchDecode h hbytes⟩

/-! ### One outcome of the pseudocode for each outcome of the model (40_step_dispatch_halt.md R115 to R118) -/

/-- The model's result is the state the pseudocode leaves, and the pseudocode's answer is the one read off that state. -/
def Refines (r : Result) (p : Bool × State) : Prop := r = .next p.2 ∧ p.2.running = p.1

theorem latchHalted_running (s : State) : s.latchHalted.running = false := (State.running_eq_false _).mpr (.inr rfl)

theorem refines_halt (s : State) : Refines (execHalt s) (false, s.latchHalted) := ⟨rfl, latchHalted_running s⟩

theorem refines_raise (k : FaultKind) (s : State) : Refines (raise k s) (pRaise k s) := ⟨rfl, rfl⟩

section running

variable {s : State} (hr : s.running = true)
include hr

theorem refines_goto (target : Word) : Refines (.next (s.jump target)) (pGoto s target) := ⟨rfl, hr⟩

theorem refines_advance (n : Nat) : Refines (.next (s.advance n)) (pGoto s (BitVec.ofNat 32 (pcn s + n))) := by
  rw [← u32_natCast, Nat.cast_add]
  exact refines_goto hr _

theorem refines_write {b : Byte} {r : Fin Config.nreg} (hb : r.val = b.toNat) (v : Word) (n : Nat) :
    Refines (.next ((s.writeReg r v).advance n)) (pWrite s b v n) := by
  refine ⟨?_, hr⟩
  have hset : s.x.setIfInBounds b.toNat v = s.x.set r.val v := by
    ext i hi
    simp only [Vector.getElem_setIfInBounds, Vector.getElem_set, hb]
  rw [pWrite, hset, ← u32_natCast, Nat.cast_add]
  rfl

end running

/-- The register the pseudocode reads at an index byte is the one the model reads. -/
theorem xAt_of_val {s : State} {b : Byte} {r : Fin Config.nreg} (hb : r.val = b.toNat) : xAt s b = s.readReg r := by
  simp [xAt, State.readReg, ← hb]

/-- The register check of both: InvalidRegister, or on with the register. -/
theorem refines_withReg (b : Byte) (s : State) {go : Fin Config.nreg → Result} {p : Bool × State}
    (hgo : ∀ r : Fin Config.nreg, r.val = b.toNat → Refines (go r) p) :
    Refines (withReg b s go) (if 8 ≤ b.toNat then pRaise .invalidRegister s else p) := by
  split
  · next hb => rw [withReg_of_ge hb]; exact refines_raise _ s
  · next hb => rw [withReg_of_lt (not_le.mp hb)]; exact hgo _ rfl

/-! ### Each meaning refines its `exec_` part, on the bytes at `pc` -/

section meanings

variable {s : State} (hr : s.running = true)
include hr

theorem refines_loadi : Refines (execLoadi (I s 1) (field32 s 2) s) (pLoadi s) :=
  refines_withReg _ s fun _ hreg => refines_write hr hreg _ 6

/-- The shape of ADD, SUB, MUL and DIV, for an operation that is `g` with DivisionByZero for `none`. -/
theorem refines_alu {f : Word → Word → Except FaultKind Word} {g : Word → Word → Option Word}
    (hfg : ∀ b c, f b c = (g b c).elim (.error .divisionByZero) .ok) :
    Refines (execAlu f (I s 1) (I s 2) (I s 3) s) (pAlu g s) := by
  refine refines_withReg _ s fun a ha => refines_withReg _ s fun b hb => refines_withReg _ s fun c hc => ?_
  rw [xAt_of_val hb, xAt_of_val hc, hfg]
  cases g (s.readReg b) (s.readReg c) with
  | none => exact refines_raise _ s
  | some v => exact refines_write hr ha v 4

theorem refines_div : Refines (execDiv (I s 1) (I s 2) (I s 3) s) (pAlu pQuotient s) := by
  refine refines_alu hr fun b c => ?_
  rw [aluDiv, pQuotient, s32_eq_toInt, s32_eq_toInt]
  split
  · rfl
  · rfl

theorem refines_load (hw : (accessWidth? (I s 3)).isSome = true) :
    Refines (execLoad (I s 1) (I s 2) (I s 3) s) (pLoad s) := by
  obtain ⟨n, hn⟩ := Option.isSome_iff_exists.mp hw
  obtain ⟨rfl, -⟩ := accessWidth?_eq_some.mp hn
  rw [execLoad, withWidth, hn]
  refine refines_withReg _ s fun r hreg => refines_withReg _ s fun ra hra => ?_
  rw [xAt_of_val hra]
  rcases Nat.lt_or_ge (len s) ((s.readReg ra).toNat + (I s 3).toNat) with hout | hin
  · rw [State.memRead_of_gt (a := effectiveAddress ra s) hout, if_pos hout]
    exact refines_raise _ s
  · rw [State.memRead_of_le (a := effectiveAddress ra s) hin, if_neg (not_lt.mpr hin), leValue_readBytes, ← u32_natCast]
    exact refines_write hr hreg _ 4

theorem refines_store (hw : (accessWidth? (I s 3)).isSome = true) :
    Refines (execStore (I s 1) (I s 2) (I s 3) s) (pStoreInstr s) := by
  obtain ⟨n, hn⟩ := Option.isSome_iff_exists.mp hw
  obtain ⟨rfl, -⟩ := accessWidth?_eq_some.mp hn
  rw [execStore, withWidth, hn]
  refine refines_withReg _ s fun ra hra => refines_withReg _ s fun r hreg => ?_
  rw [xAt_of_val hra, xAt_of_val hreg]
  rcases Nat.lt_or_ge (len s) ((s.readReg ra).toNat + (I s 3).toNat) with hout | hin
  · rw [State.memWrite_of_gt (a := effectiveAddress ra s) hout, if_pos hout]
    exact refines_raise _ s
  · rw [State.memWrite_of_le (a := effectiveAddress ra s) hin, if_neg (not_lt.mpr hin), leBytes_storeData,
      pStore_eq_writeBytes, ← u32_natCast, Nat.cast_add]
    exact ⟨rfl, hr⟩

/-- The shape of JZ and JNZ. -/
theorem refines_branch {p : Word → Prop} [DecidablePred p] {taken : Word → Bool} (htaken : ∀ v, taken v = true ↔ p v) :
    Refines
      (withReg (I s 1) s fun r =>
        if p (s.readReg r) then .next (s.jump (field32 s 2)) else .next (s.advance 6))
      (pBranch taken s) := by
  refine refines_withReg _ s fun r hreg => ?_
  simp only [xAt_of_val hreg, htaken]
  split
  · exact refines_goto hr _
  · exact refines_advance hr 6

/-- Executing the fetched instruction refines the pseudocode's case of its opcode byte. -/
theorem refines_exec {i : Instr} (hi : fetchDecode s = .ok i) : Refines (exec i s) (pExec s) := by
  have h0 := I_zero_of_fetchDecode hi
  obtain ⟨-, -, hwf⟩ := fetchDecode_ok hi
  unfold pExec
  rw [h0]
  cases i with
  | halt => exact refines_halt s
  | loadi reg imm =>
    obtain ⟨rfl, rfl⟩ := regWord_of_fetchDecode hi rfl
    exact refines_loadi hr
  | add a b c =>
    obtain ⟨rfl, rfl, rfl⟩ := threeBytes_of_fetchDecode hi rfl
    exact refines_alu (g := fun b c => some (b + c)) hr fun b c => congrArg Except.ok (u32_toNat_add b c)
  | sub a b c =>
    obtain ⟨rfl, rfl, rfl⟩ := threeBytes_of_fetchDecode hi rfl
    exact refines_alu (g := fun b c => some (b - c)) hr fun b c => congrArg Except.ok (u32_toNat_sub b c)
  | mul a b c =>
    obtain ⟨rfl, rfl, rfl⟩ := threeBytes_of_fetchDecode hi rfl
    exact refines_alu (g := fun b c => some (b * c)) hr fun b c => congrArg Except.ok (u32_toNat_mul b c)
  | div a b c =>
    obtain ⟨rfl, rfl, rfl⟩ := threeBytes_of_fetchDecode hi rfl
    exact refines_div hr
  | load r ra w =>
    obtain ⟨rfl, rfl, rfl⟩ := threeBytes_of_fetchDecode hi rfl
    exact refines_load hr hwf
  | store ra r w =>
    obtain ⟨rfl, rfl, rfl⟩ := threeBytes_of_fetchDecode hi rfl
    exact refines_store hr hwf
  | jmp target =>
    obtain rfl := field32_one_of_fetchDecode hi
    exact refines_goto hr _
  | jz reg target =>
    obtain ⟨rfl, rfl⟩ := regWord_of_fetchDecode hi rfl
    exact refines_branch (p := (· = 0)) hr fun _ => beq_iff_eq
  | jnz reg target =>
    obtain ⟨rfl, rfl⟩ := regWord_of_fetchDecode hi rfl
    exact refines_branch (p := (· ≠ 0)) hr fun _ => bne_iff_ne

end meanings

/-! ### The checks before execution (40_step_dispatch_halt.md R111 to R113) -/

/-- When the checks of fetch and decode pass, there is an instruction. -/
theorem fetchDecode_of_checks {s : State} {op : Opcode} (h0 : I s 0 = op.byte) (hfit : pcn s + op.length ≤ len s)
    (hw : (op = .load ∨ op = .store) → (I s 3).toNat ∈ [1, 2, 4, 8]) : ∃ i, fetchDecode s = .ok i := by
  have hwidth : (op = .load ∨ op = .store) → (accessWidth? (I s 3)).isSome = true := fun hop =>
    (accessWidth?_isSome_iff _).mpr (hw hop)
  obtain ⟨n, hn⟩ := Nat.exists_eq_add_of_le' op.length_pos
  have hbytes : s.mem.readBytes (pcn s) op.length = op.byte :: s.mem.readBytes (pcn s + 1) (op.length - 1) := by
    rw [← h0, hn]; rfl
  obtain ⟨i, hi⟩ : ∃ i, decodeOperands op (s.mem.readBytes (pcn s + 1) (op.length - 1)) = .ok (i, []) := by
    cases op with
    | load => exact ⟨_, if_pos (hwidth (.inl rfl))⟩
    | store => exact ⟨_, if_pos (hwidth (.inr rfl))⟩
    | _ => exact ⟨_, rfl⟩
  refine ⟨i, ?_⟩
  rw [fetchDecode_of_fits (Opcode.ofByte?_of_eq_byte h0) hfit, hbytes, decode_opcodeByte, hi]

theorem refines_fetchFault {s : State} {k : FaultKind} (hr : s.running = true) (h : fetchDecode s = .error k) :
    Refines (step s) (pRaise k s) := by
  rw [step_of_running hr, h]
  exact refines_raise k s

/-- The step refines the pseudocode, check by check in the pseudocode's order. -/
theorem refines_step (s : State) : Refines (step s) (pStep s) := by
  unfold pStep
  split
  · next hstop =>
    have hstop := (State.running_eq_false s).mpr hstop
    exact ⟨step_of_terminal hstop, hstop⟩
  next hrun =>
  have hr : s.running = true := by rwa [← State.running_eq_false, Bool.not_eq_false] at hrun
  split
  · next hout => exact refines_fetchFault hr (fetchDecode_of_oob (Nat.lt_succ_iff.mp hout))
  next hin =>
  have hin : pcn s < len s := Nat.lt_of_succ_le (not_lt.mp hin)
  split
  · next hill => exact refines_fetchFault hr (fetchDecode_of_illegal hin (Opcode.ofByte?_eq_none.mpr hill))
  next hlegal =>
  obtain ⟨op, hop⟩ := Option.ne_none_iff_exists'.mp (mt Opcode.ofByte?_eq_none.mp hlegal)
  have h0 : I s 0 = op.byte := Opcode.byte_of_ofByte? hop
  rw [h0, lengthOf_byte]
  split
  · next hshort => exact refines_fetchFault hr (fetchDecode_of_short hin hop hshort)
  next hfit =>
  split
  · next hw =>
    obtain ⟨hdata, hwidth⟩ := hw
    have hdata := op.byte_eq_dataAccess.mp hdata
    refine refines_fetchFault hr (fetchDecode_of_illegalWidth hdata h0 ?_ hwidth)
    rw [← Opcode.length_of_dataAccess hdata]
    exact not_lt.mp hfit
  · next hw =>
    obtain ⟨i, hi⟩ := fetchDecode_of_checks h0 (not_lt.mp hfit) fun hdata =>
      by_contra fun hwidth => hw ⟨op.byte_eq_dataAccess.mpr hdata, hwidth⟩
    rw [step_of_running hr, hi]
    exact refines_exec hr hi

/-- A step answers a state. -/
theorem step_total (s : State) : ∃ t, step s = .next t := ⟨_, (refines_step s).1⟩

/-! ### HALT and the end of a run (40_step_dispatch_halt.md R117, R119, R120) -/

theorem fetchDecode_eq_halt {s : State} : fetchDecode s = .ok .halt ↔ pcn s < len s ∧ I s 0 = 0x00 := by
  refine ⟨fun h => ?_, fun ⟨hin, h0⟩ => fetchDecode_halt hin h0⟩
  obtain ⟨hfit, -, -⟩ := fetchDecode_ok h
  exact ⟨hfit, I_zero_of_fetchDecode h⟩

theorem step_halt {s : State} (hr : s.running = true) (hin : pcn s < len s) (h0 : I s 0 = 0x00) :
    step s = .next s.latchHalted := by
  rw [step_of_running hr, fetchDecode_halt hin h0]
  rfl

theorem stepAnswer_of_terminal {s : State} (h : s.running = false) : stepAnswer s = false := by
  rw [stepAnswer_of_next (step_of_terminal h), h]

/-- A step of a running machine that leaves it not running ran HALT or took a fault. -/
theorem step_stops {s t : State} (hr : s.running = true) (h : step s = .next t) (hstop : t.running = false) :
    (pcn s < len s ∧ I s 0 = 0x00) ∨ ∃ k, t = s.raise k := by
  rcases step_fsr hr h with hsame | ⟨hi, -⟩ | hraise
  · rw [State.running, hsame, ← State.running, hr] at hstop
    cases hstop
  · exact .inl (fetchDecode_eq_halt.mp hi)
  · exact .inr hraise

/-- The bytes at `pc` that decode, with any bytes after them, are the instruction the fetch answers. -/
theorem fetchDecode_of_decode {s : State} {n : Nat} {i : Instr} {rest : List Byte} (hin : pcn s + n ≤ len s)
    (h : decode (s.mem.readBytes (pcn s) n) = .ok (i, rest)) : fetchDecode s = .ok i := by
  obtain ⟨hwf, hbytes⟩ := decode_ok h
  have hlen := congrArg List.length hbytes
  rw [Memory.readBytes_length, List.length_append, encode_length] at hlen
  rw [hlen, Memory.readBytes_add] at hbytes
  obtain ⟨hinstr, -⟩ := List.append_inj hbytes (by rw [Memory.readBytes_length, encode_length])
  refine fetchDecode_of_encode hinstr ?_ (by omega)
  simpa using decode_encode hwf []

end Machine
end Sys2Proof

namespace Sys2Proof.Proofs

open Sys2Proof Sys2Proof.Machine Sys2Proof.Spec

/-- Settles O14: every check and every `exec_` part of the pseudocode has the model's outcome. -/
theorem stepRefinesPseudocode : Obligations.StepRefinesPseudocode := by
  intro s
  obtain ⟨hstep, hanswer⟩ := refines_step s
  exact ⟨hstep, (stepAnswer_of_next hstep).trans hanswer⟩

/-- Settles O9: the first false answer leaves a terminal machine, and a terminal machine stays as it is. -/
theorem falseAnswerIsForever : Obligations.FalseAnswerIsForever := by
  intro s n hanswer
  obtain ⟨t, ht⟩ := step_total s
  rw [stepAnswer_of_next ht] at hanswer
  rw [State.afterSteps, after_of_next ht, afterSteps_of_terminal hanswer]
  exact ⟨rfl, stepAnswer_of_terminal hanswer⟩

/-- Settles O10: a running machine stops by HALT or by a fault alone. -/
theorem answerIsFalseInThreeCases : Obligations.AnswerIsFalseInThreeCases := by
  intro s
  constructor
  · intro hanswer
    obtain ⟨t, ht⟩ := step_total s
    rw [stepAnswer_of_next ht] at hanswer
    cases hr : s.running with
    | false => exact .inl ((State.running_eq_false s).mp hr)
    | true =>
      rcases step_stops hr ht hanswer with hhalt | ⟨k, rfl⟩
      · exact .inr (.inr ⟨rfl, hhalt⟩)
      · exact .inr (.inl ⟨rfl, k, stepFaults_of_step ht⟩)
  · rintro (hstop | ⟨-, k, -, hanswer⟩ | ⟨hr, hin, h0⟩)
    · exact stepAnswer_of_terminal ((State.running_eq_false s).mpr hstop)
    · exact hanswer
    · rw [stepAnswer_of_next (step_halt hr hin h0), latchHalted_running]

/-- Settles O15: of all that a step can do to FSR, only taking a fault sets FSR.fault. -/
theorem faultingStepChangesOnlyFsr : Obligations.FaultingStepChangesOnlyFsr := by
  intro s t hr h hfault
  obtain ⟨hclear, -⟩ := (State.running_iff s).mp hr
  rcases step_fsr hr h with hsame | ⟨-, rfl⟩ | ⟨k, rfl⟩
  · rw [hsame, hclear] at hfault
    cases hfault
  · rw [State.latchHalted_fsr, FSR.setHalted_fault, hclear] at hfault
    cases hfault
  · exact ⟨k, faults_raise k s⟩

/-- Settles O29: the halted machine is terminal; and a step that stops without a fault ran HALT. -/
theorem haltRule : Obligations.HaltRule := by
  refine ⟨fun s hr hin h0 => ?_, fun s t hr h hanswer hfault => ?_⟩
  · have hstep := step_halt hr hin h0
    have hstop := latchHalted_running s
    refine ⟨_, hstep, rfl, rfl, rfl, fun _ => rfl, rfl, ⟨fun _ => rfl, rfl⟩, ?_, fun n => ?_⟩
    · rw [stepAnswer_of_next hstep, hstop]
    · rw [afterSteps_of_terminal hstop, stepAnswer_of_terminal hstop]
  · rw [stepAnswer_of_next h] at hanswer
    rcases step_stops hr h hanswer with hhalt | ⟨k, rfl⟩
    · exact hhalt
    · cases hfault

/-- Settles O7: the bytes that decode begin with the encoding of what they decode to, which is what the fetch reads. -/
theorem stepRunsDecodedInstruction : Obligations.StepRunsDecodedInstruction :=
  fun _ _ _ _ hr hin h => by rw [step_of_running hr, fetchDecode_of_decode hin h]

/-- Settles O8: the terminal check comes before the fetch. -/
theorem terminalStepIsIdle : Obligations.TerminalStepIsIdle := by
  intro s h
  have hstop := (State.running_eq_false s).mpr h
  exact ⟨step_of_terminal hstop, stepAnswer_of_terminal hstop⟩

/-- Settles O11: the bounds check adds over unbounded integers. -/
theorem opcodeFetchOutOfBounds : Obligations.OpcodeFetchOutOfBounds := by
  refine fun s => ⟨⟨fun h => ?_, fun hout => State.memRead_of_gt (Nat.lt_succ_of_le hout)⟩, fun hr hout =>
    stepFaults_of_fetchDecode hr (fetchDecode_of_oob hout)⟩
  by_contra hin
  rw [State.memRead_of_le (Nat.succ_le_of_lt (not_le.mp hin))] at h
  cases h

/-- Settles O38: neither meaning has a check. -/
theorem haltAndJmpComplete : Obligations.HaltAndJmpComplete :=
  ⟨fun _ => ⟨_, rfl, rfl, rfl, rfl, fun _ => rfl, rfl, fun _ => rfl, rfl⟩,
    fun _ _ => ⟨_, rfl, ⟨fun _ => rfl, rfl, fun _ => rfl, rfl⟩, rfl⟩⟩

end Sys2Proof.Proofs
end

section
/-! PROOFS of the statements about LOADI (41_loadi.md), and the laws they need. -/

namespace Sys2Proof

theorem Instr.eq_loadi_of_opcode {i : Instr} (h : i.opcode = .loadi) : ∃ reg imm, i = .loadi reg imm := by
  cases i with
  | loadi reg imm => exact ⟨reg, imm, rfl⟩
  | _ => cases h

namespace Machine

open Spec

/-! ### The write of a register, and the advance (40_step_dispatch_halt.md R116) -/

theorem writesReg_advance (s : State) (r : Fin 8) (v : Word) (n : Nat) :
    WritesReg r v s ((s.writeReg r v).advance n) := by
  refine ⟨State.readReg_writeReg_self s r v, fun j hj => ?_, rfl, fun _ => rfl, rfl⟩
  rw [State.readReg_advance, State.readReg_writeReg, if_neg hj]

/-- The advance is addition of words (log entry 11). -/
theorem advance_pc_eq_add (s : State) (n : Nat) : (s.advance n).pc = s.pc + BitVec.ofNat 32 n := by
  rw [State.advance_pc, ← Nat.cast_add, u32_natCast, BitVec.ofNat_add, BitVec.ofNat_toNat, BitVec.setWidth_eq]

/-! ### A step from its fetch and its execution (40_step_dispatch_halt.md R113, R115, R117) -/

/-- An instruction whose operand bytes do not all lie in the image takes OutOfBounds. -/
theorem stepFaults_of_short {s : State} (hr : s.running = true) (hin : pcn s < len s) (op : Opcode)
    (h0 : I s 0 = op.byte) (hshort : len s < pcn s + op.length) : StepFaults .outOfBounds s :=
  stepFaults_of_fetchDecode hr (fetchDecode_of_short hin (Opcode.ofByte?_of_eq_byte h0) hshort)

theorem step_of_fetchDecode {s : State} {i : Instr} (hr : s.running = true) (hi : fetchDecode s = .ok i) :
    step s = exec i s := by
  rw [step_of_running hr, hi]

theorem stepCompletes_of_step {s t : State} {P : State → Prop} (h : step s = .next t) (hr : t.running = true)
    (hP : P t) : StepCompletes s P :=
  ⟨⟨t, h, hP⟩, by rw [stepAnswer_of_next h, hr]⟩

/-! ### LOADI (41_loadi.md R130) -/

/-- LOADI with its operands, read off the bytes at `pc`. -/
theorem fetchDecode_loadi {s : State} (hfit : pcn s + 6 ≤ len s) (h0 : I s 0 = 0x01) :
    fetchDecode s = .ok (.loadi (I s 1) (field32 s 2)) := by
  obtain ⟨i, hi⟩ := fetchDecode_of_checks (op := .loadi) h0 hfit fun hdata => absurd hdata (by decide)
  obtain ⟨reg, imm, rfl⟩ := Instr.eq_loadi_of_opcode (opcode_of_fetchDecode hi .loadi h0)
  obtain ⟨hreg, himm⟩ := regWord_of_fetchDecode hi rfl
  rw [hi, hreg, himm]

theorem exec_loadi_regByte (r : Fin 8) (imm : Word) (s : State) :
    exec (.loadi (regByte r) imm) s = .next ((s.writeReg r imm).advance 6) :=
  withReg_regByte r s _

end Machine
end Sys2Proof

namespace Sys2Proof.Proofs

open Sys2Proof Sys2Proof.Machine Sys2Proof.Spec

/-- Settles O30: the bounds check is the fetch's, and the register check is the only one of execution. -/
theorem loadiRule : Obligations.LoadiRule := by
  intro s hr hin h0
  refine ⟨stepFaults_of_short hr hin .loadi h0, fun hfit hbad => ?_, fun hfit r h1 => ?_⟩
  · have hstep := step_of_fetchDecode hr (fetchDecode_loadi hfit h0)
    exact stepFaults_of_step (hstep.trans (withReg_of_ge hbad s _))
  · have hi := fetchDecode_loadi hfit h0
    rw [h1] at hi
    have hstep := (step_of_fetchDecode hr hi).trans (exec_loadi_regByte r _ s)
    exact stepCompletes_of_step hstep hr ⟨writesReg_advance s r _ 6, advance_pc_toNat_of_fetchDecode hi⟩

/-- Settles O39: the index byte of a register below 8 passes the only check. -/
theorem loadiCompletes : Obligations.LoadiCompletes :=
  fun s r imm => ⟨_, exec_loadi_regByte r imm s, writesReg_advance s r imm 6, advance_pc_eq_add s 6⟩

end Sys2Proof.Proofs
end

section
/-! PROOFS of the statements about ADD, SUB, MUL and DIV (42_arithmetic.md), and the laws they need. -/

namespace Sys2Proof

open Spec

/-! ### The ring operations modulo 2^32 (42_arithmetic.md R136 to R138, R140) -/

theorem ofInt_toInt_add (b c : Word) : BitVec.ofInt 32 (b.toInt + c.toInt) = b + c := by
  rw [BitVec.ofInt_add, BitVec.ofInt_toInt, BitVec.ofInt_toInt]

theorem ofInt_toInt_sub (b c : Word) : BitVec.ofInt 32 (b.toInt - c.toInt) = b - c := by
  rw [Int.sub_eq_add_neg, BitVec.ofInt_add, BitVec.ofInt_neg, BitVec.ofInt_toInt, BitVec.ofInt_toInt,
    BitVec.sub_eq_add_neg]

theorem ofInt_toInt_mul (b c : Word) : BitVec.ofInt 32 (b.toInt * c.toInt) = b * c := by
  rw [BitVec.ofInt_mul, BitVec.ofInt_toInt, BitVec.ofInt_toInt]

theorem add_eq_ofNat_mod (b c : Word) : b + c = BitVec.ofNat 32 ((b.toNat + c.toNat) % 2 ^ 32) := by
  rw [← BitVec.toNat_add, BitVec.ofNat_toNat, BitVec.setWidth_eq]

theorem mul_eq_ofNat_mod (b c : Word) : b * c = BitVec.ofNat 32 ((b.toNat * c.toNat) % 2 ^ 32) := by
  rw [← BitVec.toNat_mul, BitVec.ofNat_toNat, BitVec.setWidth_eq]

/-- The two cases of R137. -/
theorem sub_eq_ofNat_ite (b c : Word) :
    b - c = BitVec.ofNat 32 (if c.toNat ≤ b.toNat then b.toNat - c.toNat else b.toNat + 2 ^ 32 - c.toNat) := by
  have hb := b.isLt
  have hc := c.isLt
  apply BitVec.eq_of_toNat_eq
  rw [BitVec.toNat_sub, BitVec.toNat_ofNat]
  split
  · omega
  · omega

/-! ### The quotient rounded toward zero (42_arithmetic.md R139, R141) -/

section quotient

variable {B C : Int}

/-! `Int.tdiv` as the floor of a rational quotient, for each pair of signs. -/

theorem tdiv_of_nonneg_nonneg (hB : 0 ≤ B) (hC : 0 ≤ C) : B.tdiv C = ⌊(B : ℚ) / C⌋ := by
  lift C to Nat using hC
  rw [Int.cast_natCast, Rat.floor_intCast_div_natCast, Int.tdiv_eq_ediv_of_nonneg hB]

theorem tdiv_of_nonpos_nonneg (hB : B ≤ 0) (hC : 0 ≤ C) : B.tdiv C = -⌊(-B : ℚ) / C⌋ := by
  rw [← Int.cast_neg, ← tdiv_of_nonneg_nonneg (Int.neg_nonneg_of_nonpos hB) hC, Int.neg_tdiv, neg_neg]

theorem tdiv_of_nonneg_nonpos (hB : 0 ≤ B) (hC : C ≤ 0) : B.tdiv C = -⌊(B : ℚ) / (-C)⌋ := by
  rw [← Int.cast_neg, ← tdiv_of_nonneg_nonneg hB (Int.neg_nonneg_of_nonpos hC), Int.tdiv_neg, neg_neg]

theorem tdiv_of_nonpos_nonpos (hB : B ≤ 0) (hC : C ≤ 0) : B.tdiv C = ⌊(-B : ℚ) / (-C)⌋ := by
  rw [← Int.cast_neg, ← Int.cast_neg,
    ← tdiv_of_nonneg_nonneg (Int.neg_nonneg_of_nonpos hB) (Int.neg_nonneg_of_nonpos hC), Int.neg_tdiv_neg]

theorem truncDiv_of_nonneg (h : 0 ≤ (B : ℚ) / C) : truncDiv B C = ⌊(B : ℚ) / C⌋ := if_pos h

theorem truncDiv_of_nonpos (h : (B : ℚ) / C ≤ 0) : truncDiv B C = -⌊-((B : ℚ) / C)⌋ := by
  rw [Int.floor_neg, neg_neg, truncDiv]
  split
  · next hnonneg => rw [le_antisymm h hnonneg, Int.floor_zero, Int.ceil_zero]
  · rfl

/-- The rational quotient rounded toward zero is the integer division that rounds toward zero. -/
theorem truncDiv_eq_tdiv (B C : Int) : truncDiv B C = B.tdiv C := by
  have cast_nonneg {n : Int} (h : 0 ≤ n) : (0 : ℚ) ≤ n := Int.cast_nonneg h
  have cast_nonpos {n : Int} (h : n ≤ 0) : (n : ℚ) ≤ 0 := Int.cast_nonpos.mpr h
  rcases le_total 0 B with hB | hB <;> rcases le_total 0 C with hC | hC
  · rw [truncDiv_of_nonneg (div_nonneg (cast_nonneg hB) (cast_nonneg hC)), tdiv_of_nonneg_nonneg hB hC]
  · rw [truncDiv_of_nonpos (div_nonpos_of_nonneg_of_nonpos (cast_nonneg hB) (cast_nonpos hC)), ← div_neg,
      tdiv_of_nonneg_nonpos hB hC]
  · rw [truncDiv_of_nonpos (div_nonpos_of_nonpos_of_nonneg (cast_nonpos hB) (cast_nonneg hC)), ← neg_div,
      tdiv_of_nonpos_nonneg hB hC]
  · rw [truncDiv_of_nonneg (div_nonneg_of_nonpos (cast_nonpos hB) (cast_nonpos hC)), ← neg_div_neg_eq,
      tdiv_of_nonpos_nonpos hB hC]

theorem abs_tmod_lt (B : Int) (hC : C ≠ 0) : |B.tmod C| < |C| := by
  rw [Int.abs_eq_natAbs, Int.abs_eq_natAbs, Int.natAbs_tmod]
  exact_mod_cast Nat.mod_lt _ (Int.natAbs_pos.mpr hC)

theorem pos_of_tmod_pos (h : 0 < B.tmod C) : 0 < B := by
  by_contra hB
  have hneg := Int.tmod_nonneg C (Int.neg_nonneg_of_nonpos (not_lt.mp hB))
  rw [Int.neg_tmod] at hneg
  omega

theorem neg_of_tmod_neg (h : B.tmod C < 0) : B < 0 :=
  not_le.mp fun hB => not_le.mpr h (Int.tmod_nonneg C hB)

/-- The quotient law of R141, for the unbounded quotient. -/
theorem quotient_law (B : Int) (hC : C ≠ 0) :
    ∃ r : Int, B = B.tdiv C * C + r ∧ |r| < |C| ∧ (r = 0 ∨ (0 < r ∧ 0 < B) ∨ (r < 0 ∧ B < 0)) := by
  refine ⟨B.tmod C, (Int.tdiv_mul_add_tmod B C).symm, abs_tmod_lt B hC, ?_⟩
  rcases lt_trichotomy (B.tmod C) 0 with hneg | hzero | hpos
  · exact .inr (.inr ⟨hneg, neg_of_tmod_neg hneg⟩)
  · exact .inl hzero
  · exact .inr (.inl ⟨hpos, pos_of_tmod_pos hpos⟩)

end quotient

/-- Outside the overflow row of R141 the quotient of two words fits in a word. -/
theorem toInt_ofInt_tdiv {b c : Word} (h : ¬ (b.toInt = -2 ^ 31 ∧ c.toInt = -1)) :
    (BitVec.ofInt 32 (b.toInt.tdiv c.toInt)).toInt = b.toInt.tdiv c.toInt := by
  have hfits : b ≠ BitVec.intMin 32 ∨ c ≠ -1#32 := by
    by_contra hover
    simp only [not_or, not_not] at hover
    obtain ⟨rfl, rfl⟩ := hover
    exact h (by decide)
  rw [BitVec.toInt_ofInt, ← BitVec.toInt_sdiv, BitVec.toInt_sdiv_of_ne_or_ne b c hfits]

namespace Machine

/-! ### What the operations of the ALU answer (42_arithmetic.md R136 to R141) -/

theorem aluAdd_eq (b c : Word) : aluAdd b c = .ok (b + c) := congrArg Except.ok (u32_toNat_add b c)

theorem aluSub_eq (b c : Word) : aluSub b c = .ok (b - c) := congrArg Except.ok (u32_toNat_sub b c)

theorem aluMul_eq (b c : Word) : aluMul b c = .ok (b * c) := congrArg Except.ok (u32_toNat_mul b c)

theorem aluDiv_of_eq_zero (b : Word) {c : Word} (hc : c = 0) : aluDiv b c = .error .divisionByZero := if_pos hc

theorem aluDiv_of_ne_zero (b : Word) {c : Word} (hc : c ≠ 0) :
    aluDiv b c = .ok (BitVec.ofInt 32 (b.toInt.tdiv c.toInt)) := by
  rw [aluDiv, if_neg hc, s32_eq_toInt, s32_eq_toInt, u32]

/-! ### The shape of ADD, SUB, MUL and DIV (42_arithmetic.md R135) -/

section execAlu

variable {f : Word → Word → Except FaultKind Word} {s : State}

theorem execAlu_of_ok {a b c : Fin 8} {v : Word} (h : f (s.readReg b) (s.readReg c) = .ok v) :
    execAlu f (regByte a) (regByte b) (regByte c) s = .next ((s.writeReg a v).advance 4) := by
  rw [execAlu, withReg_regByte, withReg_regByte, withReg_regByte, h]

theorem execAlu_of_error {a b c : Fin 8} {k : FaultKind} (h : f (s.readReg b) (s.readReg c) = .error k) :
    execAlu f (regByte a) (regByte b) (regByte c) s = .next (s.raise k) := by
  rw [execAlu, withReg_regByte, withReg_regByte, withReg_regByte, h]
  rfl

/-- A register check before a continuation that raises InvalidRegister raises it either way. -/
theorem withReg_invalidRegister (b : Byte) {go : Fin Config.nreg → Result}
    (h : ∀ r, go r = .next (s.raise .invalidRegister)) : withReg b s go = .next (s.raise .invalidRegister) := by
  rcases Nat.lt_or_ge b.toNat Config.nreg with hb | hb
  · rw [withReg_of_lt hb, h]
  · exact withReg_of_ge hb s go

/-- A bad index byte in any of the three places. -/
theorem execAlu_of_badRegister {regA regB regC : Byte}
    (h : 8 ≤ regA.toNat ∨ 8 ≤ regB.toNat ∨ 8 ≤ regC.toNat) :
    execAlu f regA regB regC s = .next (s.raise .invalidRegister) := by
  rcases h with hA | hB | hC
  · exact withReg_of_ge hA s _
  · exact withReg_invalidRegister regA fun _ => withReg_of_ge hB s _
  · exact withReg_invalidRegister regA fun _ => withReg_invalidRegister regB fun _ => withReg_of_ge hC s _

/-- Where the operation answers a value the instruction completes, whatever the rest of the state. -/
theorem execAlu_completes (a b c : Fin 8) {v : Word} (h : f (s.readReg b) (s.readReg c) = .ok v) :
    ∃ t, execAlu f (regByte a) (regByte b) (regByte c) s = .next t ∧ WritesReg a v s t ∧ t.pc = s.pc + 4 :=
  ⟨_, execAlu_of_ok h, writesReg_advance s a v 4, advance_pc_eq_add s 4⟩

end execAlu

/-! ### A step at one of their opcodes -/

/-- The instruction `mk` of the opcode `op` has format RRR and runs the ALU with the operation `f`. -/
structure RunsAlu (op : Opcode) (mk : Byte → Byte → Byte → Instr) (f : Word → Word → Except FaultKind Word) : Prop where
  decodes : ∀ bs, decodeOperands op bs = decodeRegs mk bs
  length : op.length = 4
  runs : ∀ a b c s, exec (mk a b c) s = execAlu f a b c s

theorem runsAlu_add : RunsAlu .add .add aluAdd := ⟨fun _ => rfl, rfl, fun _ _ _ _ => rfl⟩

theorem runsAlu_sub : RunsAlu .sub .sub aluSub := ⟨fun _ => rfl, rfl, fun _ _ _ _ => rfl⟩

theorem runsAlu_mul : RunsAlu .mul .mul aluMul := ⟨fun _ => rfl, rfl, fun _ _ _ _ => rfl⟩

theorem runsAlu_div : RunsAlu .div .div aluDiv := ⟨fun _ => rfl, rfl, fun _ _ _ _ => rfl⟩

namespace RunsAlu

variable {op : Opcode} {mk : Byte → Byte → Byte → Instr} {f : Word → Word → Except FaultKind Word} (hop : RunsAlu op mk f)
  {s : State} (hr : s.running = true) (h0 : I s 0 = op.byte)
include hop hr h0

theorem stepFaults_of_short (hin : pcn s < len s) (hshort : len s < pcn s + 4) : StepFaults .outOfBounds s :=
  Machine.stepFaults_of_short hr hin op h0 (by rw [hop.length]; exact hshort)

variable (hfit : pcn s + 4 ≤ len s)
include hfit

omit hr in
/-- The instruction with its operands, read off the bytes at `pc`. -/
theorem fetchDecode_eq : fetchDecode s = .ok (mk (I s 1) (I s 2) (I s 3)) := by
  have hbytes : s.mem.readBytes (pcn s) op.length = [op.byte, I s 1, I s 2, I s 3] := by rw [hop.length, ← h0]; rfl
  have hlen : pcn s + op.length ≤ len s := by rw [hop.length]; exact hfit
  rw [fetchDecode_of_fits (Opcode.ofByte?_of_eq_byte h0) hlen, hbytes, decode_opcodeByte, hop.decodes]
  rfl

theorem step_eq : step s = execAlu f (I s 1) (I s 2) (I s 3) s := by
  rw [step_of_fetchDecode hr (hop.fetchDecode_eq h0 hfit), hop.runs]

omit hr in
theorem advance_pc_toNat : (s.advance 4).pc.toNat = pcn s + 4 := by
  have hi := hop.fetchDecode_eq h0 hfit
  have hlen : Instr.length (mk (I s 1) (I s 2) (I s 3)) = 4 := by
    rw [Instr.length, opcode_of_fetchDecode hi op h0, hop.length]
  simpa only [hlen] using advance_pc_toNat_of_fetchDecode hi

theorem stepFaults_of_badRegister (hbad : 8 ≤ (I s 1).toNat ∨ 8 ≤ (I s 2).toNat ∨ 8 ≤ (I s 3).toNat) :
    StepFaults .invalidRegister s :=
  stepFaults_of_step ((hop.step_eq hr h0 hfit).trans (execAlu_of_badRegister hbad))

variable {a b c : Fin 8} (h1 : I s 1 = regByte a) (h2 : I s 2 = regByte b) (h3 : I s 3 = regByte c)
include h1 h2 h3

theorem stepFaults_of_error {k : FaultKind} (hf : f (s.readReg b) (s.readReg c) = .error k) : StepFaults k s := by
  have hstep := hop.step_eq hr h0 hfit
  rw [h1, h2, h3, execAlu_of_error hf] at hstep
  exact stepFaults_of_step hstep

theorem stepCompletes_of_ok {v : Word} (hf : f (s.readReg b) (s.readReg c) = .ok v) :
    StepCompletes s fun t => WritesReg a v s t ∧ t.pc.toNat = pcn s + 4 := by
  have hstep := hop.step_eq hr h0 hfit
  rw [h1, h2, h3, execAlu_of_ok hf] at hstep
  exact stepCompletes_of_step hstep hr ⟨writesReg_advance s a v 4, hop.advance_pc_toNat h0 hfit⟩

end RunsAlu

/-- The rule of an operation that answers a value for all operands. -/
theorem RunsAlu.aluRule {op : Opcode} {mk : Byte → Byte → Byte → Instr} {f : Word → Word → Except FaultKind Word}
    {g : Word → Word → Word} (hop : RunsAlu op mk f) (hfg : ∀ b c, f b c = .ok (g b c)) : AluRule op.byte g :=
  fun _ hr hin h0 => ⟨hop.stepFaults_of_short hr h0 hin, hop.stepFaults_of_badRegister hr h0,
    fun hfit _ _ _ h1 h2 h3 => hop.stepCompletes_of_ok hr h0 hfit h1 h2 h3 (hfg _ _)⟩

end Machine
end Sys2Proof

namespace Sys2Proof.Proofs

open Sys2Proof Sys2Proof.Machine Sys2Proof.Spec

/-- Settles O31: the three operations answer a value for all operands, and the product does not see how they are read. -/
theorem addSubMulRule : Obligations.AddSubMulRule := by
  refine ⟨runsAlu_add.aluRule fun b c => ?_, runsAlu_sub.aluRule fun b c => ?_, runsAlu_mul.aluRule fun b c => ?_,
    fun b c => ?_⟩
  · rw [aluAdd_eq, add_eq_ofNat_mod]
  · rw [aluSub_eq, sub_eq_ofNat_ite]
  · rw [aluMul_eq, mul_eq_ofNat_mod]
  · rw [← mul_eq_ofNat_mod, ofInt_toInt_mul]

/-- Settles O32: the checks are those of R135 and the one of a zero divisor, and the model's quotient is the rational one
rounded toward zero. -/
theorem divRule : Obligations.DivRule := by
  intro s hr hin h0
  refine ⟨runsAlu_div.stepFaults_of_short hr h0 hin, runsAlu_div.stepFaults_of_badRegister hr h0,
    fun hfit a b c h1 h2 h3 => ⟨fun hc => ?_, fun hc => ?_⟩⟩
  · exact runsAlu_div.stepFaults_of_error hr h0 hfit h1 h2 h3 (aluDiv_of_eq_zero _ hc)
  · rw [truncDiv_eq_tdiv]
    exact runsAlu_div.stepCompletes_of_ok hr h0 hfit h1 h2 h3 (aluDiv_of_ne_zero _ hc)

/-- Settles O40: both readings of the operands are ring homomorphisms to the words. -/
theorem addSubMulComplete : Obligations.AddSubMulComplete := by
  refine fun s a b c => ⟨?_, ?_, ?_⟩
  · obtain ⟨t, hx, hw, hpc⟩ := execAlu_completes a b c (aluAdd_eq (s.readReg b) (s.readReg c))
    exact ⟨t, _, hx, hw, hpc, (ofInt_toInt_add _ _).symm, (u32_toNat_add _ _).symm⟩
  · obtain ⟨t, hx, hw, hpc⟩ := execAlu_completes a b c (aluSub_eq (s.readReg b) (s.readReg c))
    exact ⟨t, _, hx, hw, hpc, (ofInt_toInt_sub _ _).symm, (u32_toNat_sub _ _).symm⟩
  · obtain ⟨t, hx, hw, hpc⟩ := execAlu_completes a b c (aluMul_eq (s.readReg b) (s.readReg c))
    exact ⟨t, _, hx, hw, hpc, (ofInt_toInt_mul _ _).symm, (u32_toNat_mul _ _).symm⟩

/-- Settles O41: the rows are the four sign cases of the quotient rounded toward zero, and only the overflow row's quotient
does not fit in a word. -/
theorem divisionTable : Obligations.DivisionTable := by
  rintro s a b c B C rfl rfl
  have hzero : (s.readReg c).toInt = 0 ↔ s.readReg c = 0 := BitVec.toInt_inj (y := 0)
  refine ⟨fun hC => ?_, fun hC => ?_⟩
  · exact ⟨_, execAlu_of_error (aluDiv_of_eq_zero _ (hzero.mp hC)), faults_raise _ s⟩
  · obtain ⟨t, hx, hw, hpc⟩ := execAlu_completes a b c (aluDiv_of_ne_zero (s.readReg b) (mt hzero.mpr hC))
    refine ⟨t, _, hx, hw, hpc, fun hB hC => ?_, fun hB hC => ?_, fun hB hC => ?_, fun hB hC => ?_, fun hB hC _ => ?_,
      fun hfits => ?_⟩
    · rw [hB, hC]; rfl
    · rw [tdiv_of_nonneg_nonneg hB hC.le]
    · rw [tdiv_of_nonpos_nonneg hB.le hC.le]
    · rw [tdiv_of_nonneg_nonpos hB hC.le]
    · rw [tdiv_of_nonpos_nonpos hB.le hC.le]
    · rw [toInt_ofInt_tdiv hfits]; exact quotient_law _ hC

end Sys2Proof.Proofs
end

section
/-! PROOFS of the statements about LOAD and STORE (43_load_store.md), and the laws they need. -/

namespace Sys2Proof

open Spec

/-! ### The low bytes of a little-endian sum (20_memory.md R54, 43_load_store.md R151) -/

theorem leSum_lt (m : Machine.Memory) (a n : Nat) : leSum m a n < 2 ^ (8 * n) := by
  have h := leValue_lt (m.readBytes a n)
  rw [leValue_readBytes, Machine.Memory.readBytes_length] at h
  rwa [pow_mul]

theorem leSum_add (m : Machine.Memory) (a n k : Nat) :
    leSum m a (n + k) = leSum m a n + 2 ^ (8 * n) * leSum m (a + n) k := by
  simp only [leSum, Finset.sum_range_add, Finset.mul_sum, Nat.mul_add, pow_add, Nat.mul_assoc, Nat.add_assoc]

/-- The low `8*k` bits of a sum are the sum of its low `k` bytes. -/
theorem leSum_mod (m : Machine.Memory) (a n k : Nat) : leSum m a n % 2 ^ (8 * k) = leSum m a (min n k) := by
  rcases Nat.le_total n k with h | h
  · have hlt := (leSum_lt m a n).trans_le (Nat.pow_le_pow_right Nat.two_pos (Nat.mul_le_mul_left 8 h))
    rw [Nat.min_eq_left h, Nat.mod_eq_of_lt hlt]
  · obtain ⟨j, rfl⟩ := Nat.exists_eq_add_of_le h
    rw [Nat.min_eq_right h, leSum_add, Nat.add_mul_mod_self_left, Nat.mod_eq_of_lt (leSum_lt m a k)]

/-- The sum of the low `k` of the bytes of a value just written is the value modulo `2^(8*k)`. -/
theorem leSum_writeBytes_leBytes {m : Machine.Memory} (hm : m.wf = true) (a v : Nat) {k n : Nat} (h : k ≤ n) :
    leSum (m.writeBytes a (leBytes n v)) a k = v % 2 ^ (8 * k) := by
  have hbytes := Machine.Memory.readBytes_writeBytes_leBytes hm a v (d := 0) (k := k) (n := n) (by rwa [Nat.zero_add])
  rw [Nat.add_zero, Nat.mul_zero, pow_zero, Nat.div_one] at hbytes
  rw [← leValue_readBytes, hbytes, leValue_leBytes, pow_mul]
  rfl

namespace Machine

/-! ### LOAD and STORE that are in bounds (43_load_store.md R152, R153) -/

section inBounds

variable {s : State} {p q : Fin 8} {n : Nat} (hn : n ∈ [1, 2, 4, 8])
include hn

theorem exec_load_of_le (h : (effectiveAddress q s).toNat + n ≤ len s) :
    exec (.load (regByte p) (regByte q) (BitVec.ofNat 8 n)) s =
      .next ((s.writeReg p (BitVec.ofNat 32 (leSum s.mem (effectiveAddress q s).toNat n))).advance 4) := by
  rw [exec, execLoad, withWidth_ofNat hn, withReg_regByte, withReg_regByte, State.memRead_of_le h, leValue_readBytes,
    ← u32_natCast]
  rfl

/-- The bytes stored are those of the whole register. -/
theorem exec_store_of_le_leBytes (h : (effectiveAddress p s).toNat + n ≤ len s) :
    exec (.store (regByte p) (regByte q) (BitVec.ofNat 8 n)) s =
      .next ((s.storeBytes (effectiveAddress p s).toNat (leBytes n (s.readReg q).toNat)).advance 4) := by
  rw [exec_store_of_le hn h, leBytes_storeData]

end inBounds

/-- The value a LOAD of `n` bytes writes is the sum of the low four of them. -/
theorem ofNat_leSum_toNat (m : Memory) (a n : Nat) : (BitVec.ofNat 32 (leSum m a n)).toNat = leSum m a (min n 4) := by
  rw [BitVec.toNat_ofNat, ← leSum_mod]

theorem writesBytes_advance {a n v : Nat} {s t : State} (h : WritesBytes a n v s t) (k : Nat) :
    WritesBytes a n v s (t.advance k) :=
  h

/-! ### A step at one of their opcodes -/

/-- The instruction `mk` of the opcode `op` has format RRW and is executed behind its width and register checks. -/
structure RunsLsu (op : Opcode) (mk : Byte → Byte → Byte → Instr) : Prop where
  dataAccess : op = .load ∨ op = .store
  decodes : ∀ bs, decodeOperands op bs = decodeRegsWidth mk bs
  runs : ∀ a b w s, ∃ go : Nat → Fin 8 → Fin 8 → Result, exec (mk a b w) s =
    withWidth w s fun n => withReg a s fun p => withReg b s fun q => go n p q

theorem runsLsu_load : RunsLsu .load .load := ⟨.inl rfl, fun _ => rfl, fun _ _ _ _ => ⟨_, rfl⟩⟩

theorem runsLsu_store : RunsLsu .store .store := ⟨.inr rfl, fun _ => rfl, fun _ _ _ _ => ⟨_, rfl⟩⟩

namespace RunsLsu

variable {op : Opcode} {mk : Byte → Byte → Byte → Instr} (hop : RunsLsu op mk)
include hop

/-- A bad index byte in either place, behind a legal width. -/
theorem exec_of_badRegister {a b : Byte} {n : Nat} (hn : n ∈ [1, 2, 4, 8]) (s : State)
    (hbad : 8 ≤ a.toNat ∨ 8 ≤ b.toNat) :
    exec (mk a b (BitVec.ofNat 8 n)) s = .next (s.raise .invalidRegister) := by
  obtain ⟨go, hgo⟩ := hop.runs a b (BitVec.ofNat 8 n) s
  rw [hgo, withWidth_ofNat hn]
  rcases hbad with ha | hb
  · exact withReg_of_ge ha s _
  · exact withReg_invalidRegister a fun _ => withReg_of_ge hb s _

variable {s : State} (hr : s.running = true) (h0 : I s 0 = op.byte)
include hr h0

theorem stepFaults_of_short (hin : pcn s < len s) (hshort : len s < pcn s + 4) : StepFaults .outOfBounds s :=
  Machine.stepFaults_of_short hr hin op h0 (by rw [Opcode.length_of_dataAccess hop.dataAccess]; exact hshort)

variable (hfit : pcn s + 4 ≤ len s)
include hfit

theorem stepFaults_of_illegalWidth (hw : (I s 3).toNat ∉ [1, 2, 4, 8]) : StepFaults .invalidOpcode s :=
  stepFaults_of_fetchDecode hr (fetchDecode_of_illegalWidth hop.dataAccess h0 hfit hw)

variable (hw : (I s 3).toNat ∈ [1, 2, 4, 8])
include hw

omit hr in
/-- The instruction with its operands, read off the bytes at `pc`. -/
theorem fetchDecode_eq : fetchDecode s = .ok (mk (I s 1) (I s 2) (I s 3)) := by
  have hlen := Opcode.length_of_dataAccess hop.dataAccess
  have hbytes : s.mem.readBytes (pcn s) op.length = [op.byte, I s 1, I s 2, I s 3] := by rw [hlen, ← h0]; rfl
  have hdec := decodeRegsWidth_of_legal mk (I s 1) (I s 2) ((accessWidth?_isSome_iff (I s 3)).mpr hw) []
  rw [List.append_nil] at hdec
  rw [fetchDecode_of_fits (Opcode.ofByte?_of_eq_byte h0) (by rw [hlen]; exact hfit), hbytes, decode_opcodeByte,
    hop.decodes, hdec]

theorem step_eq : step s = exec (mk (I s 1) (I s 2) (BitVec.ofNat 8 (I s 3).toNat)) s := by
  rw [step_of_fetchDecode hr (hop.fetchDecode_eq h0 hfit hw), BitVec.ofNat_toNat, BitVec.setWidth_eq]

omit hr in
theorem advance_pc_toNat : (s.advance 4).pc.toNat = pcn s + 4 := by
  have hi := hop.fetchDecode_eq h0 hfit hw
  have hlen : Instr.length (mk (I s 1) (I s 2) (I s 3)) = 4 := by
    rw [Instr.length, opcode_of_fetchDecode hi op h0, Opcode.length_of_dataAccess hop.dataAccess]
  simpa only [hlen] using advance_pc_toNat_of_fetchDecode hi

theorem stepFaults_of_badRegister (hbad : 8 ≤ (I s 1).toNat ∨ 8 ≤ (I s 2).toNat) : StepFaults .invalidRegister s :=
  stepFaults_of_step ((hop.step_eq hr h0 hfit hw).trans (hop.exec_of_badRegister hw s hbad))

theorem step_eq_of_regBytes {p q : Fin 8} (h1 : I s 1 = regByte p) (h2 : I s 2 = regByte q) :
    step s = exec (mk (regByte p) (regByte q) (BitVec.ofNat 8 (I s 3).toNat)) s := by
  rw [hop.step_eq hr h0 hfit hw, h1, h2]

end RunsLsu

/-! ### The bytes a step writes (43_load_store.md R155) -/

/-- An instruction that changes a byte is a STORE that completes, and the byte is one of those it writes. -/
theorem Wrote.memory_of_ne {i : Instr} {s t : State} (h : Wrote i s t) {c : Nat} (hne : t.mem.read c ≠ s.mem.read c) :
    t.fsr = s.fsr ∧ ∃ (ra r : Fin 8) (width : Byte), i = .store (regByte ra) (regByte r) width ∧
      (effectiveAddress ra s).toNat ≤ c ∧ c < (effectiveAddress ra s).toNat + width.toNat ∧
      (effectiveAddress ra s).toNat + width.toNat ≤ len s := by
  cases h with
  | memory ra r width n hi hn hin =>
    obtain ⟨rfl, -⟩ := accessWidth?_eq_some.mp hn
    have hinside : ¬ (c < (effectiveAddress ra s).toNat ∨ (effectiveAddress ra s).toNat + width.toNat ≤ c) :=
      fun hout => hne (Memory.read_writeBytes_outside (by rwa [leBytes_length]) s.mem)
    rw [not_or, not_lt, not_le] at hinside
    exact ⟨rfl, ra, r, width, hi, hinside.1, hinside.2, hin⟩
  | raised => exact absurd rfl hne
  | register => exact absurd rfl hne
  | jumped => exact absurd rfl hne
  | advanced => exact absurd rfl hne

end Machine
end Sys2Proof

namespace Sys2Proof.Proofs

open Sys2Proof Sys2Proof.Machine Sys2Proof.Spec

/-- Settles O33: the fetch checks bounds and width, execution checks the registers and then the data access, and what is
written is the sum of the bytes. -/
theorem loadRule : Obligations.LoadRule := by
  intro s hr hin h0
  refine ⟨runsLsu_load.stepFaults_of_short hr h0 hin, runsLsu_load.stepFaults_of_illegalWidth hr h0, fun hfit hw =>
    ⟨runsLsu_load.stepFaults_of_badRegister hr h0 hfit hw, fun r ra h1 h2 => ?_⟩⟩
  have hstep := runsLsu_load.step_eq_of_regBytes hr h0 hfit hw h1 h2
  refine ⟨fun hout => stepFaults_of_step (hstep.trans (exec_load_of_gt hw hout)), fun hle => ?_⟩
  exact stepCompletes_of_step (hstep.trans (exec_load_of_le hw hle)) hr
    ⟨writesReg_advance s r _ 4, runsLsu_load.advance_pc_toNat h0 hfit hw⟩

/-- Settles O34: the checks are those of LOAD, and the bytes of the register are written only after the last of them. -/
theorem storeRule : Obligations.StoreRule := by
  intro s hr hin h0
  refine ⟨runsLsu_store.stepFaults_of_short hr h0 hin, runsLsu_store.stepFaults_of_illegalWidth hr h0, fun hfit hw =>
    ⟨runsLsu_store.stepFaults_of_badRegister hr h0 hfit hw, fun ra r h1 h2 => ?_⟩⟩
  have hstep := runsLsu_store.step_eq_of_regBytes hr h0 hfit hw h1 h2
  refine ⟨fun hout => stepFaults_of_step (hstep.trans (exec_store_of_gt hw hout)), fun hle hm => ?_⟩
  have hpc := runsLsu_store.advance_pc_toNat h0 hfit hw
  exact stepCompletes_of_step (hstep.trans (exec_store_of_le_leBytes hw hle)) hr
    ⟨writesBytes_advance (writesBytes_storeBytes hm ..) 4, hpc⟩

/-- Settles O42: a register keeps the low four of the bytes read. -/
theorem loadCompletes : Obligations.LoadCompletes :=
  fun s r _ _ hn hin => ⟨_, _, exec_load_of_le hn hin, writesReg_advance s r _ 4, advance_pc_eq_add s 4,
    ofNat_leSum_toNat ..⟩

/-- Settles O43: in the canonical form the bytes written are read back. -/
theorem storeCompletes : Obligations.StoreCompletes :=
  fun s _ _ _ hn hm hin => ⟨_, exec_store_of_le_leBytes hn hin, writesBytes_advance (writesBytes_storeBytes hm ..) 4,
    advance_pc_eq_add s 4⟩

/-- Settles O46: of all that a step can write, only the shape of a STORE changes a byte, and its bytes are in bounds. -/
theorem onlyStoreWritesMemory : Obligations.OnlyStoreWritesMemory := by
  intro s t c h hne
  rcases step_wrote h with ⟨-, rfl⟩ | ⟨-, ⟨k, -, rfl⟩ | ⟨-, rfl⟩ | ⟨i, hi, hw⟩⟩
  · exact absurd rfl hne
  · exact absurd rfl hne
  · exact absurd rfl hne
  · obtain ⟨hfsr, ra, r, width, rfl, hlo, hhi, hin⟩ := hw.memory_of_ne hne
    obtain ⟨h1, -, rfl⟩ := threeBytes_of_fetchDecode hi rfl
    exact ⟨hhi.trans_le hin, hfsr, I_zero_of_fetchDecode hi, ra, h1, hlo, hhi⟩

/-- Settles O49: the LOAD keeps the low `min n 4` bytes at the address, which are the low bytes of the value stored. -/
theorem storeThenLoad : Obligations.StoreThenLoad := by
  intro s ra r d n hn hm hin
  have hstore := exec_store_of_le_leBytes (q := r) hn hin
  obtain ⟨u, v, hload, ⟨rfl, -⟩, -, hsum⟩ :=
    loadCompletes ((s.storeBytes (effectiveAddress ra s).toNat (leBytes n (s.readReg r).toNat)).advance 4) d ra n hn hin
  have hvalue : (u.readReg d).toNat = (s.readReg r).toNat % 2 ^ (8 * min n 4) :=
    hsum.trans (leSum_writeBytes_leBytes hm _ _ (Nat.min_le_left n 4))
  refine ⟨_, u, hstore, hload, hvalue, fun hfits => BitVec.eq_of_toNat_eq (hvalue.trans (Nat.mod_eq_of_lt ?_))⟩
  have hword : (s.readReg r).toNat < 2 ^ 32 := (s.readReg r).isLt
  rcases hfits with rfl | rfl | hfits
  · exact hword
  · exact hword
  · rcases Nat.le_total n 4 with h | h
    · rwa [Nat.min_eq_left h]
    · rwa [Nat.min_eq_right h]

end Sys2Proof.Proofs
end

section
/-! PROOFS of the statements about JMP, JZ and JNZ (44_control_transfer.md), and the laws they need. -/

namespace Sys2Proof.Machine

open Spec

/-! ### The two ways to move `pc` alone (10_state.md R26, R27) -/

theorem onlyPc_jump (s : State) (target : Word) : OnlyPc s (s.jump target) :=
  ⟨fun _ => rfl, rfl, fun _ => rfl, rfl⟩

theorem onlyPc_advance (s : State) (n : Nat) : OnlyPc s (s.advance n) :=
  ⟨fun _ => rfl, rfl, fun _ => rfl, rfl⟩

/-- A step that jumps completes wherever the target is; outside the image it is the next opcode fetch that faults. -/
theorem stepCompletes_of_jump {s : State} {target : Word} (hr : s.running = true) (h : step s = .next (s.jump target)) :
    StepCompletes s fun t => OnlyPc s t ∧ t.pc = target ∧ (len s ≤ target.toNat → StepFaults .outOfBounds t) :=
  have hr' : (s.jump target).running = true := hr
  stepCompletes_of_step h hr' ⟨onlyPc_jump s target, rfl, fun hout =>
    stepFaults_of_fetchDecode hr' (fetchDecode_of_oob hout)⟩

/-- A state that steps to itself is the state of every later step. -/
theorem afterSteps_of_step_self {s : State} (h : step s = .next s) (n : Nat) : s.afterSteps n = s := by
  induction n with
  | zero => rfl
  | succ n ih => rw [State.afterSteps, after_of_next h, ih]

/-! ### The operands, read off the bytes at `pc` (30_encoding.md R81, R85) -/

/-- The word the decoder makes of four bytes is the spec's little-endian field. -/
theorem u32_leValue_eq_field32 (s : State) (k : Nat) :
    u32 (leValue [I s k, I s (k + 1), I s (k + 2), I s (k + 3)]) = field32 s k := by
  rw [u32_natCast, field32]
  congr 1
  simp only [leValue]
  omega

/-- The fetch answers what bytes inside the image, an opcode byte and what follows it, decode to as its operands. -/
theorem fetchDecode_of_decodeOperands {s : State} {op : Opcode} {n : Nat} {i : Instr} {rest : List Byte}
    (h0 : I s 0 = op.byte) (hfit : pcn s + (n + 1) ≤ len s)
    (h : decodeOperands op (s.mem.readBytes (pcn s + 1) n) = .ok (i, rest)) : fetchDecode s = .ok i := by
  refine fetchDecode_of_decode hfit (rest := rest) ?_
  rw [Memory.readBytes, show s.mem.read (pcn s) = op.byte from h0, decode_opcodeByte, h]

/-- JMP with its target. -/
theorem fetchDecode_jmp {s : State} (hfit : pcn s + 5 ≤ len s) (h0 : I s 0 = 0x08) :
    fetchDecode s = .ok (.jmp (field32 s 1)) := by
  rw [← u32_leValue_eq_field32]
  exact fetchDecode_of_decodeOperands (op := .jmp) h0 hfit rfl

/-! ### The conditional jumps (44_control_transfer.md R167, R168) -/

/-- What JZ and JNZ share: the index check, then the target or the advance by six on the test `p` of the register. -/
def execBranch (p : Word → Prop) [DecidablePred p] (reg : Byte) (target : Word) (s : State) : Result :=
  withReg reg s fun r => if p (s.readReg r) then .next (s.jump target) else .next (s.advance 6)

section execBranch

variable {p : Word → Prop} [DecidablePred p] {s : State} {r : Fin 8}

theorem execBranch_of_taken (h : p (s.readReg r)) (target : Word) :
    execBranch p (regByte r) target s = .next (s.jump target) :=
  (withReg_regByte r s _).trans (if_pos h)

theorem execBranch_of_not_taken (h : ¬ p (s.readReg r)) (target : Word) :
    execBranch p (regByte r) target s = .next (s.advance 6) :=
  (withReg_regByte r s _).trans (if_neg h)

/-- A conditional jump on a register that exists completes either way. -/
theorem execBranch_completes (p : Word → Prop) [DecidablePred p] (s : State) (r : Fin 8) (target : Word) :
    ∃ t, execBranch p (regByte r) target s = .next t ∧ OnlyPc s t ∧
      t.pc = if p (s.readReg r) then target else s.pc + 6 := by
  by_cases h : p (s.readReg r)
  · exact ⟨_, execBranch_of_taken h target, onlyPc_jump s target, (if_pos h).symm⟩
  · exact ⟨_, execBranch_of_not_taken h target, onlyPc_advance s 6, (advance_pc_eq_add s 6).trans (if_neg h).symm⟩

end execBranch

/-- The instruction `mk` of the opcode `op` has format RT and jumps on the test `p`. -/
structure RunsBranch (op : Opcode) (mk : Byte → Word → Instr) (p : Word → Prop) [DecidablePred p] : Prop where
  decodes : ∀ bs, decodeOperands op bs = decodeRegWord mk bs
  length : op.length = 6
  runs : ∀ reg target s, exec (mk reg target) s = execBranch p reg target s

theorem runsBranch_jz : RunsBranch .jz .jz (fun v => v = 0) := ⟨fun _ => rfl, rfl, fun _ _ _ => rfl⟩

theorem runsBranch_jnz : RunsBranch .jnz .jnz (fun v => v ≠ 0) := ⟨fun _ => rfl, rfl, fun _ _ _ => rfl⟩

namespace RunsBranch

variable {op : Opcode} {mk : Byte → Word → Instr} {p : Word → Prop} [DecidablePred p] (hop : RunsBranch op mk p)
  {s : State} (h0 : I s 0 = op.byte) (hfit : pcn s + 6 ≤ len s)
include hop h0 hfit

/-- The instruction with its operands. -/
theorem fetchDecode_eq : fetchDecode s = .ok (mk (I s 1) (field32 s 2)) := by
  rw [← u32_leValue_eq_field32]
  exact fetchDecode_of_decodeOperands h0 hfit (hop.decodes _)

theorem advance_pc_toNat : (s.advance 6).pc.toNat = pcn s + 6 := by
  have hi := hop.fetchDecode_eq h0 hfit
  have hlen : Instr.length (mk (I s 1) (field32 s 2)) = 6 := by
    rw [Instr.length, opcode_of_fetchDecode hi op h0, hop.length]
  simpa only [hlen] using advance_pc_toNat_of_fetchDecode hi

theorem step_eq (hr : s.running = true) : step s = execBranch p (I s 1) (field32 s 2) s := by
  rw [step_of_fetchDecode hr (hop.fetchDecode_eq h0 hfit), hop.runs]

end RunsBranch

/-- The rule of a conditional jump: the bounds check is the fetch's, the register check the only one of execution. -/
theorem RunsBranch.branchRule {op : Opcode} {mk : Byte → Word → Instr} {p : Word → Prop} [DecidablePred p]
    (hop : RunsBranch op mk p) : BranchRule op.byte p := by
  intro s hr hin h0
  refine ⟨fun hshort => ?_, fun hfit hbad => ?_, fun hfit r h1 => ?_⟩
  · exact stepFaults_of_short hr hin op h0 (by rwa [hop.length])
  · exact stepFaults_of_step ((hop.step_eq h0 hfit hr).trans (withReg_of_ge hbad s _))
  · have hstep := hop.step_eq h0 hfit hr
    rw [h1] at hstep
    refine ⟨fun htaken => ?_, fun hnot => ?_⟩
    · exact stepCompletes_of_jump hr (hstep.trans (execBranch_of_taken htaken _))
    · exact stepCompletes_of_step (hstep.trans (execBranch_of_not_taken hnot _)) hr
        ⟨onlyPc_advance s 6, hop.advance_pc_toNat h0 hfit⟩

end Sys2Proof.Machine

namespace Sys2Proof.Proofs

open Sys2Proof Sys2Proof.Machine Sys2Proof.Spec

/-- Settles O35: JMP has no check but the fetch's, and one at its own target leaves the state as it is. -/
theorem jmpRule : Obligations.JmpRule := by
  intro s hr hin h0
  refine ⟨stepFaults_of_short hr hin .jmp h0, fun hfit => ?_⟩
  have hstep : step s = .next (s.jump (field32 s 1)) := step_of_fetchDecode hr (fetchDecode_jmp hfit h0)
  refine ⟨stepCompletes_of_jump hr hstep, fun hself n => ?_⟩
  rw [hself] at hstep
  have hloop : step s = .next s := hstep
  rw [afterSteps_of_step_self hloop n, stepAnswer_of_next hloop]
  exact ⟨rfl, hr⟩

/-- Settles O36: JZ is the conditional jump on the all-zero pattern. -/
theorem jzRule : Obligations.JzRule := runsBranch_jz.branchRule

/-- Settles O37: JNZ is the conditional jump on every other pattern. -/
theorem jnzRule : Obligations.JnzRule := runsBranch_jnz.branchRule

/-- Settles O44: both complete on the same two values of `pc`, with the test inverted. -/
theorem jzAndJnzComplete : Obligations.JzAndJnzComplete := by
  refine fun s r target => ⟨execBranch_completes (fun v => v = 0) s r target, ?_⟩
  obtain ⟨t, hx, honly, hpc⟩ := execBranch_completes (fun v => v ≠ 0) s r target
  exact ⟨t, hx, honly, hpc.trans (ite_not ..)⟩

end Sys2Proof.Proofs
end

section
/-! PROOFS of the statements about faults (60_exceptions.md), and the laws they need. -/

namespace Sys2Proof.Machine

open Spec

/-! ### The first check that fails, against the pseudocode (60_exceptions.md R189) -/

/-- The fault of the first of some checks that fails. -/
def firstOf (cs : List (Bool × FaultKind)) : Option FaultKind := (cs.find? (·.1)).map (·.2)

@[simp] theorem firstOf_nil : firstOf [] = none := rfl

@[simp] theorem firstOf_cons (c : Bool) (k : FaultKind) (cs : List (Bool × FaultKind)) :
    firstOf ((c, k) :: cs) = if c = true then some k else firstOf cs := by
  cases c with
  | false => rfl
  | true => rfl

/-- Items 2 to 5 of R189: the checks of fetch and decode. -/
def fetchChecks (s : State) : List (Bool × FaultKind) :=
  [(decide (pcn s + 1 > len s), .outOfBounds),
    (decide ((I s 0).toNat > 0x0A), .invalidOpcode),
    (decide (pcn s + lengthOf (I s 0).toNat > len s), .outOfBounds),
    (decide (((I s 0).toNat = 6 ∨ (I s 0).toNat = 7) ∧ (I s 3).toNat ∉ [1, 2, 4, 8]), .invalidOpcode)]

/-- Item 6 of R189, for an instruction with `n` register bytes. -/
def registerChecks (n : Nat) (s : State) : List (Bool × FaultKind) :=
  [(decide (1 ≤ n ∧ 8 ≤ (I s 1).toNat), .invalidRegister),
    (decide (2 ≤ n ∧ 8 ≤ (I s 2).toNat), .invalidRegister),
    (decide (3 ≤ n ∧ 8 ≤ (I s 3).toNat), .invalidRegister)]

/-- Item 7 of R189: the data conditions, on the values of registers. -/
def valueChecks (op : Nat) (s : State) : List (Bool × FaultKind) :=
  [(decide (op = 5 ∧ xAt s (I s 3) = 0), .divisionByZero),
    (decide (op = 6 ∧ (xAt s (I s 2)).toNat + (I s 3).toNat > len s), .outOfBounds),
    (decide (op = 7 ∧ (xAt s (I s 1)).toNat + (I s 3).toNat > len s), .outOfBounds)]

theorem firstFault_eq (s : State) :
    firstFault s =
      firstOf (fetchChecks s ++ (registerChecks (regCount (I s 0).toNat) s ++ valueChecks (I s 0).toNat s)) := rfl

/-- The pseudocode ends in `p` as the first failing check says: with the fault raised, or with none raised. -/
def EndsWith (s : State) : Option FaultKind → Bool × State → Prop
  | some k, p => p = pRaise k s
  | none, p => p.2.fsr.fault = s.fsr.fault ∧ p.2.fsr.cause = s.fsr.cause

section checks

variable {s : State}

/-- A check of the list against the same check of the pseudocode. -/
theorem endsWith_ite {c : Prop} [Decidable c] {k : FaultKind} {o : Option FaultKind} {p : Bool × State}
    (h : ¬ c → EndsWith s o p) : EndsWith s (if c then some k else o) (if c then pRaise k s else p) := by
  split
  · rfl
  · next hc => exact h hc

section registers

variable {cs : List (Bool × FaultKind)}

theorem firstOf_registerChecks_zero : firstOf (registerChecks 0 s ++ cs) = firstOf cs := by
  simp [registerChecks]

theorem firstOf_registerChecks_one :
    firstOf (registerChecks 1 s ++ cs) = if 8 ≤ (I s 1).toNat then some .invalidRegister else firstOf cs := by
  simp [registerChecks]

theorem firstOf_registerChecks_two :
    firstOf (registerChecks 2 s ++ cs) =
      if 8 ≤ (I s 1).toNat then some .invalidRegister
      else if 8 ≤ (I s 2).toNat then some .invalidRegister else firstOf cs := by
  simp [registerChecks]

theorem firstOf_registerChecks_three :
    firstOf (registerChecks 3 s ++ cs) =
      if 8 ≤ (I s 1).toNat then some .invalidRegister
      else if 8 ≤ (I s 2).toNat then some .invalidRegister
      else if 8 ≤ (I s 3).toNat then some .invalidRegister else firstOf cs := by
  simp [registerChecks]

end registers

theorem firstOf_valueChecks_none {op : Nat} (h : op ∉ [5, 6, 7]) : firstOf (valueChecks op s) = none := by
  simp only [List.mem_cons, List.not_mem_nil, or_false, not_or] at h
  obtain ⟨hdiv, hload, hstore⟩ := h
  simp [valueChecks, hdiv, hload, hstore]

theorem firstOf_valueChecks_div :
    firstOf (valueChecks 5 s) = if xAt s (I s 3) = 0 then some .divisionByZero else none := by
  simp [valueChecks]

theorem firstOf_valueChecks_load :
    firstOf (valueChecks 6 s) = if (xAt s (I s 2)).toNat + (I s 3).toNat > len s then some .outOfBounds else none := by
  simp [valueChecks]

theorem firstOf_valueChecks_store :
    firstOf (valueChecks 7 s) = if (xAt s (I s 1)).toNat + (I s 3).toNat > len s then some .outOfBounds else none := by
  simp [valueChecks]

/-- Without register bytes and values to check there is nothing to raise. -/
theorem endsWith_of_noCheck {op : Nat} (hop : op ∉ [5, 6, 7]) {p : Bool × State} (hfault : p.2.fsr.fault = s.fsr.fault)
    (hcause : p.2.fsr.cause = s.fsr.cause) : EndsWith s (firstOf (registerChecks 0 s ++ valueChecks op s)) p := by
  rw [firstOf_registerChecks_zero, firstOf_valueChecks_none hop]
  exact ⟨hfault, hcause⟩

/-- An ALU instruction, from the check on its values. -/
theorem endsWith_pAlu {g : Word → Word → Option Word} {op : Nat}
    (h : firstOf (valueChecks op s) = if (g (xAt s (I s 2)) (xAt s (I s 3))).isNone then some .divisionByZero else none) :
    EndsWith s (firstOf (registerChecks 3 s ++ valueChecks op s)) (pAlu g s) := by
  rw [firstOf_registerChecks_three, h]
  refine endsWith_ite fun _ => endsWith_ite fun _ => endsWith_ite fun _ => ?_
  cases g (xAt s (I s 2)) (xAt s (I s 3)) with
  | none => rfl
  | some v => exact ⟨rfl, rfl⟩

theorem pQuotient_isNone (b c : Word) : (pQuotient b c).isNone = true ↔ c = 0 := by
  simp [pQuotient]

theorem endsWith_pBranch (taken : Word → Bool) {op : Nat} (hop : op ∉ [5, 6, 7]) :
    EndsWith s (firstOf (registerChecks 1 s ++ valueChecks op s)) (pBranch taken s) := by
  rw [firstOf_registerChecks_one, firstOf_valueChecks_none hop]
  refine endsWith_ite fun _ => ?_
  split
  · exact ⟨rfl, rfl⟩
  · exact ⟨rfl, rfl⟩

theorem endsWith_pLoadi : EndsWith s (firstOf (registerChecks 1 s ++ valueChecks 1 s)) (pLoadi s) := by
  rw [firstOf_registerChecks_one, firstOf_valueChecks_none (by decide)]
  exact endsWith_ite fun _ => ⟨rfl, rfl⟩

theorem endsWith_pLoad : EndsWith s (firstOf (registerChecks 2 s ++ valueChecks 6 s)) (pLoad s) := by
  rw [firstOf_registerChecks_two, firstOf_valueChecks_load]
  exact endsWith_ite fun _ => endsWith_ite fun _ => endsWith_ite fun _ => ⟨rfl, rfl⟩

theorem endsWith_pStoreInstr : EndsWith s (firstOf (registerChecks 2 s ++ valueChecks 7 s)) (pStoreInstr s) := by
  rw [firstOf_registerChecks_two, firstOf_valueChecks_store]
  exact endsWith_ite fun _ => endsWith_ite fun _ => endsWith_ite fun _ => ⟨rfl, rfl⟩

/-- The checks of execution, opcode by opcode. -/
theorem endsWith_pExec {op : Opcode} (h0 : I s 0 = op.byte) :
    EndsWith s (firstOf (registerChecks (regCount op.byte.toNat) s ++ valueChecks op.byte.toNat s)) (pExec s) := by
  unfold pExec
  rw [h0]
  cases op with
  | halt => exact endsWith_of_noCheck (by decide) rfl rfl
  | loadi => exact endsWith_pLoadi
  | add => exact endsWith_pAlu (firstOf_valueChecks_none (by decide))
  | sub => exact endsWith_pAlu (firstOf_valueChecks_none (by decide))
  | mul => exact endsWith_pAlu (firstOf_valueChecks_none (by decide))
  | div => exact endsWith_pAlu (by simp only [pQuotient_isNone]; exact firstOf_valueChecks_div)
  | load => exact endsWith_pLoad
  | store => exact endsWith_pStoreInstr
  | jmp => exact endsWith_of_noCheck (by decide) rfl rfl
  | jz => exact endsWith_pBranch _ (by decide)
  | jnz => exact endsWith_pBranch _ (by decide)

/-- The checks of a running machine, in their order. -/
theorem endsWith_pStep (hr : s.running = true) : EndsWith s (firstFault s) (pStep s) := by
  have hstop : ¬ (s.fsr.fault = true ∨ s.fsr.halted = true) := by
    rw [← State.running_eq_false, hr]; decide
  rw [firstFault_eq, pStep, if_neg hstop]
  simp only [fetchChecks, List.cons_append, List.nil_append, firstOf_cons, decide_eq_true_eq]
  refine endsWith_ite fun _ => endsWith_ite fun hlegal => endsWith_ite fun _ => endsWith_ite fun _ => ?_
  obtain ⟨op, hop⟩ := Option.ne_none_iff_exists'.mp (mt Opcode.ofByte?_eq_none.mp hlegal)
  have h0 : I s 0 = op.byte := Opcode.byte_of_ofByte? hop
  rw [h0]
  exact endsWith_pExec h0

end checks

/-! ### Why executing an instruction raises a fault (60_exceptions.md R181, R183, R184) -/

/-- The faults of execution, each with its condition on the instruction and the state. -/
inductive ExecRaises (s : State) : Instr → FaultKind → Prop where
  | badRegister {i : Instr} {b : Byte} (hb : b ∈ i.regBytes) (hbad : 8 ≤ b.toNat) : ExecRaises s i .invalidRegister
  | zeroDivisor (a b : Fin 8) {c : Fin 8} (hc : s.readReg c = 0) :
      ExecRaises s (.div (regByte a) (regByte b) (regByte c)) .divisionByZero
  | loadOutside (p : Fin 8) {q : Fin 8} {n : Nat} (hn : n ∈ [1, 2, 4, 8])
      (hout : len s < (effectiveAddress q s).toNat + n) :
      ExecRaises s (.load (regByte p) (regByte q) (BitVec.ofNat 8 n)) .outOfBounds
  | storeOutside {p : Fin 8} (q : Fin 8) {n : Nat} (hn : n ∈ [1, 2, 4, 8])
      (hout : len s < (effectiveAddress p s).toNat + n) :
      ExecRaises s (.store (regByte p) (regByte q) (BitVec.ofNat 8 n)) .outOfBounds

theorem exists_regByte {b : Byte} (h : b.toNat < 8) : ∃ r : Fin 8, b = regByte r :=
  ⟨⟨b.toNat, h⟩, byte_of_val rfl⟩

theorem exists_regBytes_two {a b : Byte} (h : ∀ x ∈ [a, b], x.toNat < 8) :
    ∃ p q : Fin 8, a = regByte p ∧ b = regByte q := by
  obtain ⟨p, hp⟩ := exists_regByte (h a List.mem_cons_self)
  obtain ⟨q, hq⟩ := exists_regByte (h b (List.mem_cons_of_mem _ List.mem_cons_self))
  exact ⟨p, q, hp, hq⟩

theorem exists_regBytes_three {a b c : Byte} (h : ∀ x ∈ [a, b, c], x.toNat < 8) :
    ∃ p q r : Fin 8, a = regByte p ∧ b = regByte q ∧ c = regByte r := by
  obtain ⟨hp, hrest⟩ := List.forall_mem_cons.mp h
  obtain ⟨p, hp⟩ := exists_regByte hp
  obtain ⟨q, r, hq, hr⟩ := exists_regBytes_two hrest
  exact ⟨p, q, r, hp, hq, hr⟩

theorem exists_ofNat_of_width {w : Byte} (h : (accessWidth? w).isSome = true) :
    ∃ n ∈ [1, 2, 4, 8], w = BitVec.ofNat 8 n :=
  ⟨w.toNat, (accessWidth?_isSome_iff w).mp h, by rw [BitVec.ofNat_toNat, BitVec.setWidth_eq]⟩

/-! A bad register byte, wherever it stands, is found before the values of registers are looked at. -/

theorem withReg_of_badByte {reg b : Byte} (hb : b ∈ [reg]) (hbad : 8 ≤ b.toNat) (s : State)
    (go : Fin Config.nreg → Result) : withReg reg s go = .next (s.raise .invalidRegister) :=
  withReg_of_ge (List.mem_singleton.mp hb ▸ hbad) s go

theorem RunsAlu.exec_of_badByte {op : Opcode} {mk : Byte → Byte → Byte → Instr}
    {f : Word → Word → Except FaultKind Word} (hop : RunsAlu op mk f) {p q r b : Byte} (hb : b ∈ [p, q, r])
    (hbad : 8 ≤ b.toNat) (s : State) : exec (mk p q r) s = .next (s.raise .invalidRegister) := by
  rw [hop.runs]
  apply execAlu_of_badRegister
  simp only [List.mem_cons, List.not_mem_nil, or_false] at hb
  rcases hb with rfl | rfl | rfl
  · exact .inl hbad
  · exact .inr (.inl hbad)
  · exact .inr (.inr hbad)

theorem RunsLsu.exec_of_badByte {op : Opcode} {mk : Byte → Byte → Byte → Instr} (hop : RunsLsu op mk) {p q w b : Byte}
    (hw : (accessWidth? w).isSome = true) (hb : b ∈ [p, q]) (hbad : 8 ≤ b.toNat) (s : State) :
    exec (mk p q w) s = .next (s.raise .invalidRegister) := by
  obtain ⟨n, hn, rfl⟩ := exists_ofNat_of_width hw
  apply hop.exec_of_badRegister hn
  simp only [List.mem_cons, List.not_mem_nil, or_false] at hb
  rcases hb with rfl | rfl
  · exact .inl hbad
  · exact .inr hbad

theorem exec_of_badByte {i : Instr} (hwf : i.wellFormed = true) {b : Byte} (hb : b ∈ i.regBytes) (hbad : 8 ≤ b.toNat)
    (s : State) : exec i s = .next (s.raise .invalidRegister) := by
  cases i with
  | halt => cases hb
  | loadi reg imm => exact withReg_of_badByte hb hbad s _
  | add a b c => exact runsAlu_add.exec_of_badByte hb hbad s
  | sub a b c => exact runsAlu_sub.exec_of_badByte hb hbad s
  | mul a b c => exact runsAlu_mul.exec_of_badByte hb hbad s
  | div a b c => exact runsAlu_div.exec_of_badByte hb hbad s
  | load r ra w => exact runsLsu_load.exec_of_badByte hwf hb hbad s
  | store ra r w => exact runsLsu_store.exec_of_badByte hwf hb hbad s
  | jmp target => cases hb
  | jz reg target => exact withReg_of_badByte hb hbad s _
  | jnz reg target => exact withReg_of_badByte hb hbad s _

/-- A fault of execution is taken. -/
theorem ExecRaises.exec_eq {i : Instr} {s : State} {k : FaultKind} (h : ExecRaises s i k) (hwf : i.wellFormed = true) :
    exec i s = .next (s.raise k) := by
  cases h with
  | badRegister hb hbad => exact exec_of_badByte hwf hb hbad s
  | zeroDivisor a b hc => exact execAlu_of_error (aluDiv_of_eq_zero _ hc)
  | loadOutside p hn hout => exact exec_load_of_gt hn hout
  | storeOutside q hn hout => exact exec_store_of_gt hn hout

/-! With register bytes below 8, only a zero divisor or a data access outside the image is left to raise a fault. -/

/-- Execution ends in a state with FSR.fault as it was. -/
def ExecKeepsFault (i : Instr) (s : State) : Prop := ∃ t, exec i s = .next t ∧ t.fsr.fault = s.fsr.fault

theorem RunsAlu.keepsFault {op : Opcode} {mk : Byte → Byte → Byte → Instr} {f : Word → Word → Except FaultKind Word}
    (hop : RunsAlu op mk f) {g : Word → Word → Word} (hf : ∀ x y, f x y = .ok (g x y)) {a b c : Byte}
    (hgood : ∀ x ∈ [a, b, c], x.toNat < 8) (s : State) : ExecKeepsFault (mk a b c) s := by
  obtain ⟨p, q, r, rfl, rfl, rfl⟩ := exists_regBytes_three hgood
  exact ⟨_, (hop.runs _ _ _ s).trans (execAlu_of_ok (hf _ _)), rfl⟩

theorem RunsBranch.keepsFault {op : Opcode} {mk : Byte → Word → Instr} {p : Word → Prop} [DecidablePred p]
    (hop : RunsBranch op mk p) {reg : Byte} (hgood : ∀ x ∈ [reg], x.toNat < 8) (target : Word) (s : State) :
    ExecKeepsFault (mk reg target) s := by
  obtain ⟨r, rfl⟩ := exists_regByte (hgood reg List.mem_cons_self)
  obtain ⟨t, hx, ⟨-, hfsr, -⟩, -⟩ := execBranch_completes p s r target
  exact ⟨t, (hop.runs _ target s).trans hx, congrArg FSR.fault hfsr⟩

theorem raises_or_keepsFault_div {a b c : Byte} (hgood : ∀ x ∈ [a, b, c], x.toNat < 8) (s : State) :
    (∃ k, ExecRaises s (.div a b c) k) ∨ ExecKeepsFault (.div a b c) s := by
  obtain ⟨p, q, r, rfl, rfl, rfl⟩ := exists_regBytes_three hgood
  by_cases hr : s.readReg r = 0
  · exact .inl ⟨_, .zeroDivisor p q hr⟩
  · exact .inr ⟨_, execAlu_of_ok (aluDiv_of_ne_zero _ hr), rfl⟩

theorem raises_or_keepsFault_load {a b w : Byte} (hw : (accessWidth? w).isSome = true)
    (hgood : ∀ x ∈ [a, b], x.toNat < 8) (s : State) :
    (∃ k, ExecRaises s (.load a b w) k) ∨ ExecKeepsFault (.load a b w) s := by
  obtain ⟨p, q, rfl, rfl⟩ := exists_regBytes_two hgood
  obtain ⟨n, hn, rfl⟩ := exists_ofNat_of_width hw
  rcases Nat.lt_or_ge (len s) ((effectiveAddress q s).toNat + n) with hout | hin
  · exact .inl ⟨_, .loadOutside p hn hout⟩
  · exact .inr ⟨_, exec_load_of_le hn hin, rfl⟩

theorem raises_or_keepsFault_store {a b w : Byte} (hw : (accessWidth? w).isSome = true)
    (hgood : ∀ x ∈ [a, b], x.toNat < 8) (s : State) :
    (∃ k, ExecRaises s (.store a b w) k) ∨ ExecKeepsFault (.store a b w) s := by
  obtain ⟨p, q, rfl, rfl⟩ := exists_regBytes_two hgood
  obtain ⟨n, hn, rfl⟩ := exists_ofNat_of_width hw
  rcases Nat.lt_or_ge (len s) ((effectiveAddress p s).toNat + n) with hout | hin
  · exact .inl ⟨_, .storeOutside q hn hout⟩
  · exact .inr ⟨_, exec_store_of_le hn hin, rfl⟩

theorem raises_or_keepsFault_of_goodBytes {i : Instr} (hwf : i.wellFormed = true)
    (hgood : ∀ b ∈ i.regBytes, b.toNat < 8) (s : State) : (∃ k, ExecRaises s i k) ∨ ExecKeepsFault i s := by
  cases i with
  | halt => exact .inr ⟨_, rfl, rfl⟩
  | loadi reg imm =>
    obtain ⟨r, rfl⟩ := exists_regByte (hgood reg List.mem_cons_self)
    exact .inr ⟨_, exec_loadi_regByte r imm s, rfl⟩
  | add a b c => exact .inr (runsAlu_add.keepsFault aluAdd_eq hgood s)
  | sub a b c => exact .inr (runsAlu_sub.keepsFault aluSub_eq hgood s)
  | mul a b c => exact .inr (runsAlu_mul.keepsFault aluMul_eq hgood s)
  | div a b c => exact raises_or_keepsFault_div hgood s
  | load r ra w => exact raises_or_keepsFault_load hwf hgood s
  | store ra r w => exact raises_or_keepsFault_store hwf hgood s
  | jmp target => exact .inr ⟨_, rfl, rfl⟩
  | jz reg target => exact .inr (runsBranch_jz.keepsFault hgood target s)
  | jnz reg target => exact .inr (runsBranch_jnz.keepsFault hgood target s)

theorem raises_or_keepsFault {i : Instr} (hwf : i.wellFormed = true) (s : State) :
    (∃ k, ExecRaises s i k) ∨ ExecKeepsFault i s := by
  by_cases hbad : ∃ b ∈ i.regBytes, 8 ≤ b.toNat
  · obtain ⟨b, hb, hbad⟩ := hbad
    exact .inl ⟨_, .badRegister hb hbad⟩
  · exact raises_or_keepsFault_of_goodBytes hwf (fun b hb => not_le.mp fun hge => hbad ⟨b, hb, hge⟩) s

/-- The inversion of a fault of execution: what was taken is one of the faults of execution, its condition met. -/
theorem exec_raised {i : Instr} {s t : State} (hwf : i.wellFormed = true) (hr : s.running = true)
    (h : exec i s = .next t) (hfault : t.fsr.fault = true) : ∃ k, ExecRaises s i k ∧ t = s.raise k := by
  rcases raises_or_keepsFault hwf s with ⟨k, hk⟩ | ⟨u, hu, hkeep⟩
  · cases (hk.exec_eq hwf).symm.trans h
    exact ⟨k, hk, rfl⟩
  · cases hu.symm.trans h
    rw [hkeep, ((State.running_iff s).mp hr).1] at hfault
    cases hfault

theorem invalidRegister_mem_execFaultKinds {i : Instr} {b : Byte} (hb : b ∈ i.regBytes) :
    .invalidRegister ∈ execFaultKinds i := by
  cases i with
  | halt => cases hb
  | jmp target => cases hb
  | _ => exact List.mem_cons_self

theorem ExecRaises.mem_execFaultKinds {i : Instr} {s : State} {k : FaultKind} (h : ExecRaises s i k) :
    k ∈ execFaultKinds i := by
  cases h with
  | badRegister hb _ => exact invalidRegister_mem_execFaultKinds hb
  | zeroDivisor => exact List.mem_cons_of_mem _ List.mem_cons_self
  | loadOutside => exact List.mem_cons_of_mem _ List.mem_cons_self
  | storeOutside => exact List.mem_cons_of_mem _ List.mem_cons_self

theorem ExecRaises.not_invalidRegister {i : Instr} {s : State} (hgood : ∀ b ∈ i.regBytes, b.toNat < 8) :
    ¬ ExecRaises s i .invalidRegister
  | .badRegister hb hbad => absurd (hgood _ hb) (not_lt.mpr hbad)

theorem ExecRaises.divisionByZero_iff {i : Instr} {s : State} :
    ExecRaises s i .divisionByZero ↔
      ∃ a b c : Fin 8, i = .div (regByte a) (regByte b) (regByte c) ∧ s.readReg c = 0 := by
  constructor
  · intro h
    cases h with
    | zeroDivisor a b hc => exact ⟨a, b, _, rfl, hc⟩
  · rintro ⟨a, b, c, rfl, hc⟩
    exact .zeroDivisor a b hc

/-! ### The faults of fetch and decode (60_exceptions.md R181, R182) -/

theorem rejectFault_ne_divisionByZero (r : Reject) : rejectFault r ≠ .divisionByZero := by
  cases r <;> decide

/-- The checks of fetch and decode look at no register, so none of them is the one of a zero divisor. -/
theorem fetchDecode_ne_divisionByZero (s : State) : fetchDecode s ≠ .error .divisionByZero := by
  intro h
  rcases Nat.lt_or_ge (pcn s) (len s) with hin | hout
  · cases hop : Opcode.ofByte? (I s 0) with
    | none => rw [fetchDecode_of_illegal hin hop] at h; cases h
    | some op =>
      rcases Nat.lt_or_ge (len s) (pcn s + op.length) with hshort | hfit
      · rw [fetchDecode_of_short hin hop hshort] at h; cases h
      · rw [fetchDecode_of_fits hop hfit] at h
        split at h
        · next r _ => exact rejectFault_ne_divisionByZero r (Except.error.inj h)
        · cases h
  · rw [fetchDecode_of_oob hout] at h; cases h

/-- A step raises DivisionByZero only in execution. -/
theorem step_divisionByZero {s t : State} (hr : s.running = true) (h : step s = .next t)
    (hf : Faults .divisionByZero s t) : ∃ i, fetchDecode s = .ok i ∧ ExecRaises s i .divisionByZero := by
  obtain ⟨hfault, hcause, -⟩ := hf
  rw [step_of_running hr] at h
  split at h
  · next k hk =>
    cases h
    obtain rfl : k = .divisionByZero := Option.some.inj hcause
    exact absurd hk (fetchDecode_ne_divisionByZero s)
  · next i hi =>
    obtain ⟨-, -, hwf⟩ := fetchDecode_ok hi
    obtain ⟨k, hk, rfl⟩ := exec_raised hwf hr h hfault
    obtain rfl : k = .divisionByZero := Option.some.inj hcause
    exact ⟨i, hi, hk⟩

end Sys2Proof.Machine

namespace Sys2Proof.Proofs

open Sys2Proof Sys2Proof.Machine Sys2Proof.Spec

/-- Settles O12: the pseudocode of R118 gives every state a next one. -/
theorem everyStepAnswersAState : Obligations.EveryStepAnswersAState := step_total

/-- Settles O13: the pseudocode makes the checks of the table in the table's order. -/
theorem firstFailingCheckDecides : Obligations.FirstFailingCheckDecides := by
  intro s
  obtain ⟨hstep, -⟩ := refines_step s
  refine ⟨fun hstop => ⟨step_of_terminal hstop, stepAnswer_of_terminal hstop⟩, fun hr k hk => ?_, fun hr hnone => ?_⟩
  · have hend := endsWith_pStep hr
    rw [hk] at hend
    rw [hend] at hstep
    exact stepFaults_of_step hstep
  · obtain ⟨hfault, hcause⟩ := hnone ▸ endsWith_pStep hr
    obtain ⟨hclear, -⟩ := (State.running_iff s).mp hr
    exact ⟨_, hstep, hfault.trans hclear, hcause⟩

/-- Settles O16: the table lists, for each instruction, the faults whose condition it can meet. -/
theorem execFaultKinds : Obligations.ExecFaultKinds := by
  intro i s t hwf hr h hfault
  obtain ⟨k, hk, rfl⟩ := exec_raised hwf hr h hfault
  exact ⟨k, hk.mem_execFaultKinds, faults_raise k s⟩

/-- Settles O17: the register checks come first in execution, and no other check raises InvalidRegister. -/
theorem badRegisterByteFaults : Obligations.BadRegisterByteFaults := by
  refine fun i s hwf => ⟨fun ⟨b, hb, hbad⟩ => ⟨_, exec_of_badByte hwf hb hbad s, faults_raise _ s⟩,
    fun hgood hr t h ⟨hfault, hcause, _⟩ => ?_, rfl, fun _ => rfl⟩
  obtain ⟨k, hk, rfl⟩ := exec_raised hwf hr h hfault
  obtain rfl : k = .invalidRegister := Option.some.inj hcause
  exact ExecRaises.not_invalidRegister hgood hk

/-- Settles O18: neither the fetch nor the decoder raises DivisionByZero, and of execution only the zero divisor does. -/
theorem divisionByZeroOnlyFromDiv : Obligations.DivisionByZeroOnlyFromDiv := by
  refine fun s hr => ⟨fun ⟨⟨t, h, hf⟩, _⟩ => ?_, fun ⟨a, b, c, hi, hc⟩ => stepFaults_of_step ?_⟩
  · obtain ⟨i, hi, hk⟩ := step_divisionByZero hr h hf
    obtain ⟨a, b, c, rfl, hc⟩ := ExecRaises.divisionByZero_iff.mp hk
    exact ⟨a, b, c, hi, hc⟩
  · rw [step_of_fetchDecode hr hi]
    exact (ExecRaises.zeroDivisor a b hc).exec_eq rfl

end Sys2Proof.Proofs
end

section
/-! PROOFS of the statements about reset and the host port (70_reset_and_hazards.md), and the laws they need. -/

namespace Sys2Proof.Machine

@[simp] theorem State.readReg_resetInput (s : State) (r : Fin Config.nreg) : s.resetInput.readReg r = 0 :=
  Vector.getElem_replicate _

@[simp] theorem State.resetInput_running (s : State) : s.resetInput.running = true := rfl

/-- The image load of an image that the host can carry (70_reset_and_hazards.md R211). -/
theorem State.load_of_le {image : List Byte} (h : image.length ≤ Config.maxImageLen) (s : State) :
    s.load image = some { s with mem := Memory.ofBytes 0 image, imageLen := BitVec.ofNat 32 image.length } :=
  if_pos h

/-- There is no image load of a longer image (log entry 10). -/
theorem State.load_of_not_le {image : List Byte} (h : ¬ image.length ≤ Config.maxImageLen) (s : State) :
    s.load image = none :=
  if_neg h

/-- The image load writes memory and `L`, the reset input the other fields, so they commute
(70_reset_and_hazards.md R212). -/
theorem State.load_resetInput (s : State) (image : List Byte) :
    s.resetInput.load image = (s.load image).map State.resetInput := by
  by_cases h : image.length ≤ Config.maxImageLen
  · rw [load_of_le h, load_of_le h]; rfl
  · rw [load_of_not_le h, load_of_not_le h]; rfl

end Sys2Proof.Machine

namespace Sys2Proof.Proofs

open Sys2Proof Sys2Proof.Machine Sys2Proof.Spec

/-- Settles O56: the load replaces memory by the image's cells, which read as the image, and `L` by a length that fits. -/
theorem loadPlacesTheImage : Obligations.LoadPlacesTheImage := fun image s hlen =>
  ⟨_, State.load_of_le hlen s, imageLen_toNat_of_le hlen, fun _ hi => Memory.read_image image hi, fun _ => rfl, rfl, rfl⟩

/-- Settles O57: the reset input puts 0 in registers, `pc` and FSR, and the load touches none of them. -/
theorem resetStartsARun : Obligations.ResetStartsARun :=
  ⟨fun s => ⟨s.readReg_resetInput, rfl, rfl, rfl, rfl, s.resetInput_running, fun _ => rfl, rfl⟩, State.load_resetInput⟩

end Sys2Proof.Proofs
end

section
/-! PROOFS of the statement about the values of FSR in a legal state (95_test_vectors.md section 0), and the law it needs. -/

namespace Sys2Proof.Machine

/-- A legal FSR is that of a Running, a Halted or a Faulted machine, and nothing else is left open but the fault's kind
(10_state.md R33). -/
theorem FSR.cases_of_legal {f : FSR} (h : f.legal = true) :
    f = FSR.reset ∨ f = FSR.reset.setHalted ∨ ∃ k, f = FSR.reset.setFault k := by
  obtain ⟨fault, halted, cause⟩ := f
  obtain ⟨hcause, hboth⟩ := (FSR.legal_iff _).mp h
  cases cause with
  | none =>
    obtain rfl : fault = false := hcause
    cases halted with
    | false => exact .inl rfl
    | true => exact .inr (.inl rfl)
  | some k =>
    obtain rfl : fault = true := hcause
    obtain rfl : halted = false := Bool.eq_false_iff.mpr fun hhalted => hboth ⟨rfl, hhalted⟩
    exact .inr (.inr ⟨k, rfl⟩)

end Sys2Proof.Machine

namespace Sys2Proof.Proofs

open Sys2Proof Sys2Proof.Machine Sys2Proof.Spec

/-- Settles O22: the table has a value for Running, one for Halted, and one for each kind of fault. -/
theorem legalFsrWords : Obligations.LegalFsrWords := by
  intro s hlegal
  obtain ⟨-, -, hfsr⟩ := (State.legal_iff s).mp hlegal
  rcases FSR.cases_of_legal hfsr with hf | hf | ⟨k, hf⟩ <;> rw [hf]
  · decide
  · decide
  · cases k <;> decide

end Sys2Proof.Proofs
end
